-- ==== Sys2Proof/Word.lean ====
section
/-! DEFINITION. The memory cell type and an operand byte as memory delivers it (00_scope.md R9, R12). -/

namespace Sys2Proof

/-- A byte: the content of one memory cell, 0 to 255 (R9, R35). Its value as an unsigned integer is `(b.toNat : Int)`. -/
abbrev Byte := BitVec 8

/-- What stands at an operand address (R12: pc0 + 1 or pc0 + 2): the byte there, or nothing, because the address lies
past the end of memory (R63: "reads an operand byte at 256 and raises OutOfBounds(256)"). An instruction whose opcode
byte stands at 254 or 255 is still decoded and run (R101); it faults at the step of its rule that reads the operand. -/
inductive Operand where
  /-- the operand address holds this byte -/
  | byte (b : Byte)
  /-- the operand address is past the end of memory -/
  | beyond
deriving DecidableEq, Repr

end Sys2Proof
end

