-- ==== Sys2Proof/Config.lean ====
section
/-! DEFINITION. The parameters of the core that the spec leaves to the implementation (00_scope.md R7, 10_state.md R21,
92_eei_decisions.md "Open parameters a model takes as arguments"). The default values are `Config.default` in
Sys2Proof/Decode.lean. -/

namespace Sys2Proof

/-- DIV_ROUND (R7, D5): how DIV rounds a quotient that is not an integer. -/
inductive DivRound where
  /-- toward minus infinity; MOD then has the sign of the divisor (R134, R135) -/
  | floor
  /-- toward zero; MOD then has the sign of the dividend -/
  | truncate
deriving DecidableEq, Repr

/-- The open parameters of the core (R7). -/
structure Config where
  /-- REG_MIN, the least integer a register can hold; `none` is minus infinity (D1) -/
  regMin : Option Int
  /-- REG_MAX, the greatest integer a register can hold; `none` is plus infinity (D1) -/
  regMax : Option Int
  /-- DIV_ROUND (D5) -/
  divRound : DivRound
  /-- OPC_ADD (D3) -/
  opcAdd : Byte
  /-- OPC_SUB (D3) -/
  opcSub : Byte
  /-- OPC_MUL (D3) -/
  opcMul : Byte
  /-- OPC_DIV (D3) -/
  opcDiv : Byte
  /-- OPC_MOD (D3) -/
  opcMod : Byte
  /-- OPC_PUSH (D3) -/
  opcPush : Byte
  /-- OPC_POP (D3) -/
  opcPop : Byte
  /-- OPC_CALL (D3) -/
  opcCall : Byte
  /-- OPC_RET (D3) -/
  opcRet : Byte
deriving DecidableEq, Repr

end Sys2Proof
end

