-- ==== Sys2Proof/Syntax.lean ====
section
/-! DEFINITION. The instruction set: one constructor for each row of spec/opcode_table.json (30_encoding.md R80, R85). -/

namespace Sys2Proof

/-- The twelve instructions (R2, R85), in the table's order, each with its operand bytes in ascending address order
(R80). A register operand is the WHOLE operand byte, 0 to 255: an index above 7 is a fault of a legal instruction
(R83, R86), so it is no matter of syntax. -/
inductive Instr where
  /-- LDI, load immediate: format RI, `82 r imm` (R120) -/
  | ldi (r imm : Operand)
  /-- PRN, print register: format R, `47 r` (R121) -/
  | prn (r : Operand)
  /-- HLT, halt: format N, `01` (R122) -/
  | hlt
  /-- ADD: format RR, `A0 ra rb` (R131) -/
  | add (ra rb : Operand)
  /-- SUB: format RR, `A1 ra rb` (R132) -/
  | sub (ra rb : Operand)
  /-- MUL: format RR, `A2 ra rb` (R133) -/
  | mul (ra rb : Operand)
  /-- DIV: format RR, `A3 ra rb` (R134) -/
  | div (ra rb : Operand)
  /-- MOD: format RR, `A4 ra rb` (R135) -/
  | mod (ra rb : Operand)
  /-- PUSH: format R, `45 r` (R150) -/
  | push (r : Operand)
  /-- POP: format R, `46 r` (R151) -/
  | pop (r : Operand)
  /-- CALL: format R, `50 r` (R160) -/
  | call (r : Operand)
  /-- RET: format N, `11` (R161) -/
  | ret
deriving DecidableEq, Repr

/-- The operand bytes of an instruction in ascending address order (R80). -/
def Instr.operands : Instr → List Operand
  | .ldi r imm => [r, imm]
  | .prn r => [r]
  | .hlt => []
  | .add ra rb => [ra, rb]
  | .sub ra rb => [ra, rb]
  | .mul ra rb => [ra, rb]
  | .div ra rb => [ra, rb]
  | .mod ra rb => [ra, rb]
  | .push r => [r]
  | .pop r => [r]
  | .call r => [r]
  | .ret => []

end Sys2Proof
end

