-- ==== Sys2Proof/WellFormed.lean ====
section
/-! DEFINITION. Which terms of `Instr` stand for bytes in memory (30_encoding.md R80, 20_memory.md R63). -/

namespace Sys2Proof

/-- The operand bytes lie at consecutive ascending addresses (R80), so a byte cannot follow one that is past the end of
memory. -/
def Operand.listWf : List Operand → Bool
  | .beyond :: .byte _ :: _ => false
  | _ :: rest => Operand.listWf rest
  | [] => true

/-- The well-formed instructions: those that some bytes in memory spell. Every opcode and every operand byte 0 to 255
is admitted; an invalid register index is a fault of a legal instruction, not an ill-formed one (R86). -/
def Instr.wf (i : Instr) : Bool :=
  Operand.listWf i.operands

/-- The instruction lies wholly inside memory: every operand address holds a byte. -/
def Instr.complete (i : Instr) : Bool :=
  i.operands.all fun o => o != .beyond

end Sys2Proof
end

