-- ==== Sys2Proof/Decode.lean ====
section
/-! DEFINITION. The parameter defaults, the opcode map, decoding and encoding (30_encoding.md R80 to R87,
40_execution_cycle.md R103, 92_eei_decisions.md D1, D3, D5). -/

namespace Sys2Proof

/-- The spec's default parameters (R7): registers unbounded (D1), division rounds toward minus infinity (D5), and the
nine opcode values of R85 that the source does not give (D3).
PRESUMED (the nine opcode values, which the spec marks as general knowledge): unsafe, log 2.
DESIGN CHOICE (unbounded registers; floor): unsafe for a core built with other parameters, logs 1 and 3. -/
def Config.default : Config where
  regMin := none
  regMax := none
  divRound := .floor
  opcAdd := 0xA0#8
  opcSub := 0xA1#8
  opcMul := 0xA2#8
  opcDiv := 0xA3#8
  opcMod := 0xA4#8
  opcPush := 0x45#8
  opcPop := 0x46#8
  opcCall := 0x50#8
  opcRet := 0x11#8

/-- OPC_LDI, given by the source (R85). -/
def opcLdi : Byte := 0x82#8

/-- OPC_PRN, given by the source (R85). -/
def opcPrn : Byte := 0x47#8

/-- OPC_HLT, given by the source (R85). -/
def opcHlt : Byte := 0x01#8

/-- The operand count of an opcode byte, its bits 7:6 (R81, R8: "`b[7:6]` is `floor(b / 64)` for a byte b"). -/
def nops (b : Byte) : Nat :=
  b.toNat / 64

/-- The twelve handlers of the dispatch table (R103, R106): an instruction without its operand bytes. -/
inductive Handler where
  | ldi | prn | hlt | add | sub | mul | div | mod | push | pop | call | ret
deriving DecidableEq, Repr

/-- The dispatch table: all handlers, in the order in which R103 compares their opcode values. -/
def Handler.all : List Handler :=
  [.ldi, .prn, .hlt, .add, .sub, .mul, .div, .mod, .push, .pop, .call, .ret]

/-- The opcode byte of a handler (R85). -/
def Handler.opcode (c : Config) : Handler → Byte
  | .ldi => opcLdi
  | .prn => opcPrn
  | .hlt => opcHlt
  | .add => c.opcAdd
  | .sub => c.opcSub
  | .mul => c.opcMul
  | .div => c.opcDiv
  | .mod => c.opcMod
  | .push => c.opcPush
  | .pop => c.opcPop
  | .call => c.opcCall
  | .ret => c.opcRet

/-- How many operand bytes a handler's format has (R80). -/
def Handler.arity : Handler → Nat
  | .ldi | .add | .sub | .mul | .div | .mod => 2
  | .prn | .push | .pop | .call => 1
  | .hlt | .ret => 0

/-- Decode by the WHOLE opcode byte (R82, R103); `none` is UnsupportedInstruction. No bit has a meaning of its own here,
and a byte absent from the table is refused whatever it resembles (R82, R86). The comparisons are those of R103, in its
order; the opcode values are pairwise distinct (`Config.valid`), so the order decides nothing. -/
def lookup (c : Config) (b : Byte) : Option Handler :=
  Handler.all.find? fun h => h.opcode c == b

/-- The constraints the spec puts on the open parameters (R7, R85, 92_eei_decisions.md): REG_MIN <= 0, REG_MAX >= 255,
the twelve opcode values pairwise distinct, and bits 7:6 of each spell the operand count of its format. -/
def Config.valid (c : Config) : Bool :=
  c.regMin.all (fun m => decide (m ≤ 0)) && c.regMax.all (fun m => decide (255 ≤ m))
    && decide ((Handler.all.map (Handler.opcode c)).Nodup)
    && Handler.all.all fun h => nops (h.opcode c) == h.arity

/-- Why no instruction can be read from a sequence of bytes. -/
inductive Reject where
  /-- there is no byte to decode -/
  | noByte
  /-- the first byte is not in the dispatch table (R86, R173) -/
  | unsupported (b : Byte)
deriving DecidableEq, Repr

/-- The next operand byte of a byte sequence that ends where memory ends. -/
def takeOperand : List Byte → Operand × List Byte
  | [] => (.beyond, [])
  | b :: rest => (.byte b, rest)

/-- One operand byte. -/
def takeOne (mk : Operand → Instr) (bs : List Byte) : Instr × List Byte :=
  let r := takeOperand bs
  (mk r.1, r.2)

/-- Two operand bytes, in ascending address order (R80). -/
def takeTwo (mk : Operand → Operand → Instr) (bs : List Byte) : Instr × List Byte :=
  let r := takeOperand bs
  let q := takeOperand r.2
  (mk r.1 q.1, q.2)

/-- The instruction of a handler whose operand bytes stand at the head of `bs` (the four formats of R80). -/
def Handler.withOperands (bs : List Byte) : Handler → Instr × List Byte
  | .ldi => takeTwo .ldi bs
  | .prn => takeOne .prn bs
  | .hlt => (.hlt, bs)
  | .add => takeTwo .add bs
  | .sub => takeTwo .sub bs
  | .mul => takeTwo .mul bs
  | .div => takeTwo .div bs
  | .mod => takeTwo .mod bs
  | .push => takeOne .push bs
  | .pop => takeOne .pop bs
  | .call => takeOne .call bs
  | .ret => (.ret, bs)

/-- The instruction at the head of a sequence of bytes that ends where memory ends, and the bytes after it. Total: what
is not an instruction is rejected by name. -/
def decodeWith (c : Config) : List Byte → Except Reject (Instr × List Byte)
  | [] => .error .noByte
  | b :: rest =>
    match lookup c b with
    | none => .error (.unsupported b)
    | some h => .ok (h.withOperands rest)

/-- Decoding with the default opcode values (R85). -/
def decode (bs : List Byte) : Except Reject (Instr × List Byte) :=
  decodeWith Config.default bs

/-- The handler of an instruction. -/
def Instr.handler : Instr → Handler
  | .ldi _ _ => .ldi
  | .prn _ => .prn
  | .hlt => .hlt
  | .add _ _ => .add
  | .sub _ _ => .sub
  | .mul _ _ => .mul
  | .div _ _ => .div
  | .mod _ _ => .mod
  | .push _ => .push
  | .pop _ => .pop
  | .call _ => .call
  | .ret => .ret

/-- The byte an operand puts into the instruction stream: none past the end of memory. -/
def Operand.bytes : Operand → List Byte
  | .byte b => [b]
  | .beyond => []

/-- The bytes of an instruction in ascending address order (R80, R85). -/
def encodeWith (c : Config) (i : Instr) : List Byte :=
  i.handler.opcode c :: i.operands.flatMap Operand.bytes

/-- Encoding with the default opcode values (R85). -/
def encode (i : Instr) : List Byte :=
  encodeWith Config.default i

/-- The three bytes of a table word: bit 0 is the least significant bit of the first byte, and every bit from `nbits` up
is 0. -/
def tableBytes (nbits w : Nat) : List Byte :=
  let v := w % 2 ^ nbits
  [BitVec.ofNat 8 v, BitVec.ofNat 8 (v / 256), BitVec.ofNat 8 (v / 65536)]

/-- What the decoder reads from a table word. -/
def decodeTableWord (nbits w : Nat) : Option Instr :=
  match decode (tableBytes nbits w) with
  | .ok (i, _) => some i
  | .error _ => none

end Sys2Proof
end

