-- ==== Sys2Proof/Machine/State.lean ====
section
/-! DEFINITION. The architectural state (10_state.md R20 to R37), the reasons a step stops, and the state after reset. -/

namespace Sys2Proof.Machine

/-- The eight register names (R22). R5 is also IM (interrupt mask), R6 IS (interrupt status), both inert (R26); R7 is SP,
the stack pointer (R27). -/
inductive Reg where
  | r0 | r1 | r2 | r3 | r4 | r5 | r6 | r7
deriving DecidableEq, Repr

/-- The register file: eight slots, each a mathematical integer, never reduced by any modulus (R22, R24). -/
structure Regs where
  /-- R0, general purpose -/
  r0 : Int
  /-- R1, general purpose -/
  r1 : Int
  /-- R2, general purpose -/
  r2 : Int
  /-- R3, general purpose -/
  r3 : Int
  /-- R4, general purpose -/
  r4 : Int
  /-- R5, IM: reserved, addressable, inert (R26) -/
  r5 : Int
  /-- R6, IS: reserved, addressable, inert (R26) -/
  r6 : Int
  /-- R7, SP: the address of the most recently pushed value (R27) -/
  r7 : Int
deriving DecidableEq, Repr

/-- The memory array M (R35), as a list of cells in canonical form (`Memory.wf` in Machine/Ops.lean): addresses strictly
rising, all below 256, no cell equal to `Memory.unlisted`. -/
abbrev Memory := List Host.Cell

/-- What an address that is not listed reads as: memory is "zero-filled" at reset (R35, R37). -/
def Memory.unlisted : Byte := 0#8

/-- The run status (R32). -/
inductive Status where
  /-- the core fetches and executes -/
  | running
  /-- HLT has executed: normal termination -/
  | halted
  /-- a fault was raised: abnormal termination -/
  | faulted
deriving DecidableEq, Repr

/-- The fault kinds (R170). -/
inductive FaultKind where
  | unsupportedInstruction | unsupportedOperation | invalidRegister | outOfBounds | divisionByZero | valueOutOfRange
deriving DecidableEq, Repr

/-- `K(info)`: a fault kind with the value it records (R170 to R176). -/
inductive FaultCause where
  /-- decode: the opcode byte is not in the dispatch table (R173) -/
  | unsupportedInstruction (b : Byte)
  /-- an ALU operation tag that does not exist; nothing raises it (R175) -/
  | unsupportedOperation
  /-- a register index that is not 0 to 7 (R172) -/
  | invalidRegister (i : Byte)
  /-- an address that is not 0 to 255 (R171) -/
  | outOfBounds (a : Int)
  /-- DIV or MOD by a register that holds 0: the index of the divisor register (R174) -/
  | divisionByZero (rb : Byte)
  /-- a value that does not fit where it is written (R176) -/
  | valueOutOfRange (v : Int)
deriving DecidableEq, Repr

/-- The fault record (R34): kind and info, the content of ir at the time of the fault, and pc0. -/
structure FaultRecord where
  /-- kind and info -/
  cause : FaultCause
  /-- the last fetched opcode byte; stale for a fetch fault (R180) -/
  opcode : Byte
  /-- the address of the instruction being fetched or executed -/
  pc0 : Int
deriving DecidableEq, Repr

/-- The architectural state (R20); "Nothing else is state". -/
structure State where
  /-- the registers (R22) -/
  x : Regs
  /-- the program counter, an integer that never wraps (R29) -/
  pc : Int
  /-- the instruction register (R30) -/
  ir : Byte
  /-- the memory array M (R35) -/
  mem : Memory
  /-- the run status (R32) -/
  status : Status
  /-- the fault record (R34) -/
  fault : Option FaultRecord
  /-- the output channel: the integers emitted, oldest first (R33) -/
  out : List Int
deriving DecidableEq, Repr

/-- Why `step` takes no step: the core performs none unless its status is Running (R32, R100). Neither constructor is an
architectural fault; those are NEXT states (R180). DESIGN CHOICE: safe, log 6. -/
inductive Fault where
  /-- raised by `step` in the Halted state: the run has ended normally (R32, R208). Safe: the machine stops. -/
  | halted
  /-- raised by `step` in the Faulted state: the run has ended abnormally, and the failure surfaces with its fault record
  (R180, R208). Safe: the machine stops. -/
  | faulted (record : Option FaultRecord)
deriving DecidableEq, Repr

/-- Why an instruction has no meaning in the model. -/
inductive Refusal where
  /-- raised by an arm of `exec` whose instruction has no meaning yet; no arm is left so. Safe. -/
  | notModelled (mnemonic : String)
deriving DecidableEq, Repr

/-- The outcome of a step or of an instruction. -/
abbrev Result := Host.Outcome State Fault Refusal

/-- The registers after reset (R37): the stack pointer 0xF4, all others 0. -/
def Regs.reset : Regs where
  r0 := 0
  r1 := 0
  r2 := 0
  r3 := 0
  r4 := 0
  r5 := 0
  r6 := 0
  r7 := 0xF4

/-- The state after reset (R37, R200), every memory cell 0. The values of pc, ir, fault and out are the spec's own
decision D6 (log 4).
DESIGN CHOICE: status is Running, so that this is the launch state of R205 with an empty image, as R37 allows; safe, log
5. -/
def State.reset : State where
  x := Regs.reset
  pc := 0
  ir := 0#8
  mem := []
  status := .running
  fault := none
  out := []

end Sys2Proof.Machine
end

