-- ==== Sys2Proof/Machine/Ops.lean ====
section
/-! DEFINITION. The named operations over registers, memory and output, the generic advance, and fault entry: the
primitives of 00_scope.md R10. -/

namespace Sys2Proof.Machine

/-! ### Registers (R22 to R24) -/

/-- The register an index selects; `none` when the index is not 0 to 7. No bit of the index is ignored (R23, R83). -/
def Reg.ofIndex : Nat → Option Reg
  | 0 => some .r0
  | 1 => some .r1
  | 2 => some .r2
  | 3 => some .r3
  | 4 => some .r4
  | 5 => some .r5
  | 6 => some .r6
  | 7 => some .r7
  | _ => none

/-- The integer held in a slot. -/
def Regs.get (x : Regs) : Reg → Int
  | .r0 => x.r0
  | .r1 => x.r1
  | .r2 => x.r2
  | .r3 => x.r3
  | .r4 => x.r4
  | .r5 => x.r5
  | .r6 => x.r6
  | .r7 => x.r7

/-- The register file with one slot holding `v`. -/
def Regs.set (x : Regs) (i : Reg) (v : Int) : Regs :=
  match i with
  | .r0 => { x with r0 := v }
  | .r1 => { x with r1 := v }
  | .r2 => { x with r2 := v }
  | .r3 => { x with r3 := v }
  | .r4 => { x with r4 := v }
  | .r5 => { x with r5 := v }
  | .r6 => { x with r6 := v }
  | .r7 => { x with r7 := v }

/-- The integer a register holds. -/
def State.reg (s : State) (i : Reg) : Int :=
  s.x.get i

/-- The state with one register holding `v`, nothing checked. -/
def State.setReg (s : State) (i : Reg) (v : Int) : State :=
  { s with x := s.x.set i v }

/-- `REG_MIN <= v <= REG_MAX` (R24). -/
def inRange (c : Config) (v : Int) : Bool :=
  c.regMin.all (fun m => decide (m ≤ v)) && c.regMax.all (fun m => decide (v ≤ m))

/-- `x[i]` (R23): InvalidRegister when the index is not 0 to 7. -/
def readReg (s : State) (i : Byte) : Except FaultCause Int :=
  match Reg.ofIndex i.toNat with
  | none => .error (.invalidRegister i)
  | some r => .ok (s.reg r)

/-- The write of a slot whose index is known to be valid (R23): ValueOutOfRange when the value does not fit. PUSH, POP,
CALL and RET reach register 7 through it, so they cannot raise InvalidRegister there. -/
def writeSlot (c : Config) (s : State) (r : Reg) (v : Int) : Except FaultCause State :=
  if inRange c v then .ok (s.setReg r v) else .error (.valueOutOfRange v)

/-- `x[i] <- v` (R23): the index is checked before the value. -/
def writeReg (c : Config) (s : State) (i : Byte) (v : Int) : Except FaultCause State :=
  match Reg.ofIndex i.toNat with
  | none => .error (.invalidRegister i)
  | some r => writeSlot c s r v

/-! ### Memory (R35, R50 to R52) -/

/-- The content of the cell at address `a`. -/
def Memory.read : Memory → Nat → Byte
  | [], _ => Memory.unlisted
  | (k, b) :: m, a => if k = a then b else Memory.read m a

/-- The memory with the cell at address `a` holding `v`, in canonical form. -/
def Memory.write : Memory → Nat → Byte → Memory
  | [], a, v => if v = Memory.unlisted then [] else [(a, v)]
  | (k, b) :: m, a, v =>
    if a < k then (if v = Memory.unlisted then (k, b) :: m else (a, v) :: (k, b) :: m)
    else if a = k then (if v = Memory.unlisted then m else (a, v) :: m)
    else (k, b) :: Memory.write m a v

/-- Canonical form from address `lo` upward. -/
def Memory.wfFrom (lo : Nat) : Memory → Bool
  | [] => true
  | (k, b) :: m => decide (lo ≤ k) && decide (k < 256) && (b != Memory.unlisted) && Memory.wfFrom (k + 1) m

/-- The canonical form of memory: addresses strictly rising, all of them below 256 (R50), no cell that reads as an
unlisted address does. -/
def Memory.wf (m : Memory) : Bool :=
  Memory.wfFrom 0 m

/-- `0 <= a <= 255`: the address names a cell (R9, R50). -/
abbrev validAddress (a : Int) : Prop :=
  0 ≤ a ∧ a ≤ 255

/-- The state with the cell at a valid address holding `v`, nothing checked. -/
def State.setCell (s : State) (a : Int) (v : Byte) : State :=
  { s with mem := s.mem.write a.toNat v }

/-- The byte in the cell at a valid address. -/
def State.cell (s : State) (a : Int) : Byte :=
  s.mem.read a.toNat

/-- `MemRead(a, 1)` (R51). -/
def memRead (s : State) (a : Int) : Except FaultCause Byte :=
  if validAddress a then .ok (s.cell a) else .error (.outOfBounds a)

/-- `MemWrite(a, 1, v)` (R52): the address is checked before the value, and the value is never truncated. -/
def memWrite (s : State) (a v : Int) : Except FaultCause State :=
  if validAddress a then
    if 0 ≤ v ∧ v ≤ 255 then .ok (s.setCell a (BitVec.ofNat 8 v.toNat)) else .error (.valueOutOfRange v)
  else .error (.outOfBounds a)

/-! ### Output, ir, status, pc -/

/-- `Emit(v)` (R33): one more line, after all earlier ones. -/
def State.emit (s : State) (v : Int) : State :=
  { s with out := s.out ++ [v] }

/-- `ir <- b` (R30). -/
def State.setIr (s : State) (b : Byte) : State :=
  { s with ir := b }

/-- `status <- st` (R32). -/
def State.setStatus (s : State) (st : Status) : State :=
  { s with status := st }

/-- `pc <- t` (R29). -/
def State.setPc (s : State) (t : Int) : State :=
  { s with pc := t }

/-- The address of the instruction after this one, `pc0 + nops(ir) + 1` (R81): the generic advance goes there, and CALL
stores it. -/
def State.nextPc (s : State) : Int :=
  s.pc + (nops s.ir : Int) + 1

/-- The generic advance (R104): the instruction completes and the pc moves past it. -/
def advance (s : State) : Result :=
  .next (s.setPc s.nextPc)

/-! ### Fault entry (R180) and the sequence of numbered steps (R10) -/

/-- FAULT ENTRY (R180): the fault record becomes (kind, info, ir, pc0) and the status Faulted; everything written by
earlier steps is kept; the pc still holds pc0, because it changes only at the end of an instruction (R29). Control goes
nowhere: there is no vector, no mode and no stack use.
There is NO RETURN from a fault (R181): the only way out is reset, `State.reset`. -/
def State.raise (s : State) (e : FaultCause) : Result :=
  .next { s with fault := some { cause := e, opcode := s.ir, pc0 := s.pc }, status := .faulted }

/-- One numbered step of a rule's pseudocode: when it raises, the instruction ends there with the effect of the steps
before it (`s`), else the next steps go on with its answer (R10, R179, R180). -/
def State.attempt {α : Type} (s : State) (r : Except FaultCause α) (k : α → Result) : Result :=
  match r with
  | .error e => s.raise e
  | .ok a => k a

/-! ### The fault record as numbers (R34, R170) -/

/-- The fault kind of a cause. -/
def FaultCause.kind : FaultCause → FaultKind
  | .unsupportedInstruction _ => .unsupportedInstruction
  | .unsupportedOperation => .unsupportedOperation
  | .invalidRegister _ => .invalidRegister
  | .outOfBounds _ => .outOfBounds
  | .divisionByZero _ => .divisionByZero
  | .valueOutOfRange _ => .valueOutOfRange

/-- The recorded info as a number (R170, column "recorded info"). -/
def FaultCause.info : FaultCause → Option Int
  | .unsupportedInstruction b => some (b.toNat : Int)
  | .unsupportedOperation => none
  | .invalidRegister i => some (i.toNat : Int)
  | .outOfBounds a => some a
  | .divisionByZero rb => some (rb.toNat : Int)
  | .valueOutOfRange v => some v

/-- The numeric code of a fault kind (R170, D10: labels only). -/
def FaultKind.code : FaultKind → Nat
  | .unsupportedInstruction => 1
  | .unsupportedOperation => 2
  | .invalidRegister => 3
  | .outOfBounds => 4
  | .divisionByZero => 5
  | .valueOutOfRange => 6

end Sys2Proof.Machine
end

