-- ==== Sys2Proof/Machine/Operands.lean ====
section
/-! DEFINITION. How a handler obtains an operand byte (30_encoding.md R83, R84; 00_scope.md R12, double indirection). -/

namespace Sys2Proof.Machine

/-- A way to obtain an operand byte in the state in which the step of the rule reads it. -/
abbrev OperandReader := State → Except FaultCause Byte

/-- The spec's own way (R83): `MemRead(pc0 + k, 1)` at execution time. -/
def memOperand (k : Nat) : OperandReader :=
  fun s => memRead s (s.pc + (k : Int))

/-- The operand at pc0 + k of a decoded instruction: its byte, or OutOfBounds(pc0 + k) past the end of memory (R63). No
step before the read writes memory, except in CALL, so this is what `memOperand k` gives. DEDUCED: safe, log 7. -/
def fetchedOperand (o : Operand) (k : Nat) : OperandReader :=
  fun s =>
    match o with
    | .byte b => .ok b
    | .beyond => .error (.outOfBounds (s.pc + (k : Int)))

/-- CALL's operand (R160 step 3): read AFTER the stack write, so when that write, at the address the stack pointer now
holds, landed on the operand byte, the byte read is the new one (R83). DEDUCED: safe, log 7. -/
def callOperand (o : Operand) : OperandReader :=
  fun s => if s.reg .r7 = s.pc + 1 then memOperand 1 s else fetchedOperand o 1 s

/-- The operand byte that stands at an operand address now. -/
def State.operandAt (s : State) (k : Nat) : Operand :=
  if validAddress (s.pc + (k : Int)) then .byte (s.cell (s.pc + (k : Int))) else .beyond

end Sys2Proof.Machine
end

