-- ==== Sys2Proof/Machine/Alu.lean ====
section
/-! DEFINITION. ADD, SUB, MUL, DIV, MOD (42_alu.md R130 to R139). -/

namespace Sys2Proof.Machine

/-- The ALU's operation tag (R130). The tag is fixed by the decoded handler, so UnsupportedOperation cannot be raised
(R103, R175). -/
inductive AluOp where
  | add | sub | mul | div | mod
deriving DecidableEq, Repr

/-- The integer quotient (R134). -/
def quotient (m : DivRound) (a b : Int) : Int :=
  match m with
  | .floor => Int.fdiv a b
  | .truncate => Int.tdiv a b

/-- The operation `f(a, b)` of an ALU instruction, exact integer arithmetic (R131 to R136). The remainder is what the
quotient leaves: `a - b * (a div b)` (R135, R137). -/
def AluOp.apply (c : Config) (op : AluOp) (a b : Int) : Int :=
  match op with
  | .add => a + b
  | .sub => a - b
  | .mul => a * b
  | .div => quotient c.divRound a b
  | .mod => a - b * quotient c.divRound a b

/-- DIV and MOD have a divisor (R130 step 5). -/
def AluOp.divides : AluOp → Bool
  | .div | .mod => true
  | .add | .sub | .mul => false

/-- Step 5 of R130: DivisionByZero, with the index of the divisor register. -/
def checkDivisor (op : AluOp) (rb : Byte) (b : Int) : Except FaultCause Unit :=
  if op.divides ∧ b = 0 then .error (.divisionByZero rb) else .ok ()

/-- The steps of an ALU instruction (R130): both sources are read before the destination is written (R138). -/
def aluSteps (c : Config) (op : AluOp) (op1 op2 : OperandReader) (s : State) : Result :=
  s.attempt (op1 s) fun ra =>
  s.attempt (op2 s) fun rb =>
  s.attempt (readReg s ra) fun a =>
  s.attempt (readReg s rb) fun b =>
  s.attempt (checkDivisor op rb b) fun _ =>
  s.attempt (writeReg c s ra (op.apply c a b)) fun s' =>
  advance s'

/-- ADD (R131). -/
def execAdd (ra rb : Operand) (s : State) : Result :=
  aluSteps Config.default .add (fetchedOperand ra 1) (fetchedOperand rb 2) s

/-- SUB (R132). -/
def execSub (ra rb : Operand) (s : State) : Result :=
  aluSteps Config.default .sub (fetchedOperand ra 1) (fetchedOperand rb 2) s

/-- MUL (R133). -/
def execMul (ra rb : Operand) (s : State) : Result :=
  aluSteps Config.default .mul (fetchedOperand ra 1) (fetchedOperand rb 2) s

/-- DIV (R134). DESIGN CHOICE (the spec's D5, floor): unsafe for a negative operand, log 3. -/
def execDiv (ra rb : Operand) (s : State) : Result :=
  aluSteps Config.default .div (fetchedOperand ra 1) (fetchedOperand rb 2) s

/-- MOD (R135). DESIGN CHOICE (the spec's D5, floor): unsafe for a negative operand, log 3. -/
def execMod (ra rb : Operand) (s : State) : Result :=
  aluSteps Config.default .mod (fetchedOperand ra 1) (fetchedOperand rb 2) s

end Sys2Proof.Machine
end

