-- ==== Sys2Proof/Machine/Stack.lean ====
section
/-! DEFINITION. PUSH and POP (43_stack.md R150 to R153). -/

namespace Sys2Proof.Machine

/-- Where PUSH and CALL store: the stack pointer after the decrement (R150, "pre-decrement addressing"; R160). -/
def State.pushSlot (s : State) : Int :=
  s.reg .r7 - 1

/-- Where POP and RET read: the stack pointer before the increment (R151, R161). -/
def State.popSlot (s : State) : Int :=
  s.reg .r7

/-- The steps of PUSH (R150): a fault after step 1 leaves the stack pointer decremented. -/
def pushSteps (c : Config) (op1 : OperandReader) (s : State) : Result :=
  s.attempt (writeSlot c s .r7 s.pushSlot) fun s1 =>
  s1.attempt (op1 s1) fun r =>
  s1.attempt (readReg s1 r) fun v =>
  s1.attempt (memWrite s1 (s1.reg .r7) v) fun s2 =>
  advance s2

/-- The steps of POP (R151). -/
def popSteps (c : Config) (op1 : OperandReader) (s : State) : Result :=
  s.attempt (memRead s s.popSlot) fun v =>
  s.attempt (op1 s) fun r =>
  s.attempt (writeReg c s r (v.toNat : Int)) fun s1 =>
  s1.attempt (writeSlot c s1 .r7 (s1.reg .r7 + 1)) fun s2 =>
  advance s2

/-- PUSH (R150). -/
def execPush (r : Operand) (s : State) : Result :=
  pushSteps Config.default (fetchedOperand r 1) s

/-- POP (R151). -/
def execPop (r : Operand) (s : State) : Result :=
  popSteps Config.default (fetchedOperand r 1) s

end Sys2Proof.Machine
end

