-- ==== Sys2Proof/Machine/CallReturn.lean ====
section
/-! DEFINITION. CALL and RET (44_call_return.md R160 to R163). Neither applies the generic advance (R104). -/

namespace Sys2Proof.Machine

/-- The steps of CALL (R160): the return address is pushed before the operand byte is read. -/
def callSteps (c : Config) (op1 : OperandReader) (s : State) : Result :=
  s.attempt (writeSlot c s .r7 s.pushSlot) fun s1 =>
  s1.attempt (memWrite s1 (s1.reg .r7) s1.nextPc) fun s2 =>
  s2.attempt (op1 s2) fun r =>
  s2.attempt (readReg s2 r) fun t =>
  .next (s2.setPc t)

/-- The steps of RET (R161): the pc is written when the instruction completes, so a fault of step 3 leaves it (R29,
90_conflicts.md C13). -/
def retSteps (c : Config) (s : State) : Result :=
  s.attempt (memRead s s.popSlot) fun t =>
  s.attempt (writeSlot c s .r7 (s.reg .r7 + 1)) fun s1 =>
  .next (s1.setPc (t.toNat : Int))

/-- CALL (R160). -/
def execCall (r : Operand) (s : State) : Result :=
  callSteps Config.default (callOperand r) s

/-- RET (R161). -/
def execRet (s : State) : Result :=
  retSteps Config.default s

end Sys2Proof.Machine
end

