-- ==== Sys2Proof/Machine/LoadPrintHalt.lean ====
section
/-! DEFINITION. LDI, PRN, HLT (41_load_print_halt.md R120 to R122). The `…Steps` definitions are the numbered steps of
the rules, for any parameters and any way to obtain the operand bytes. -/

namespace Sys2Proof.Machine

/-- The steps of LDI (R120). -/
def ldiSteps (c : Config) (op1 op2 : OperandReader) (s : State) : Result :=
  s.attempt (op1 s) fun r =>
  s.attempt (op2 s) fun imm =>
  s.attempt (writeReg c s r (imm.toNat : Int)) fun s' =>
  advance s'

/-- The steps of PRN (R121). -/
def prnSteps (op1 : OperandReader) (s : State) : Result :=
  s.attempt (op1 s) fun r =>
  s.attempt (readReg s r) fun v =>
  advance (s.emit v)

/-- The steps of HLT (R122): the generic advance is applied. -/
def hltSteps (s : State) : Result :=
  advance (s.setStatus .halted)

/-- LDI (R120). -/
def execLdi (r imm : Operand) (s : State) : Result :=
  ldiSteps Config.default (fetchedOperand r 1) (fetchedOperand imm 2) s

/-- PRN (R121). -/
def execPrn (r : Operand) (s : State) : Result :=
  prnSteps (fetchedOperand r 1) s

/-- HLT (R122). -/
def execHlt (s : State) : Result :=
  hltSteps s

end Sys2Proof.Machine
end

