-- ==== Sys2Proof/Machine/Cycle.lean ====
section
/-! DEFINITION. The fetch-decode-execute cycle (40_execution_cycle.md R100 to R104), for any parameters. -/

namespace Sys2Proof.Machine

/-- The bytes at pc0 + 1 and pc0 + 2 that lie inside memory: what the decoder sees after the opcode byte. Reading them
changes nothing (R51). -/
def operandBytes (s : State) : List Byte :=
  [1, 2].flatMap fun k => (s.operandAt k).bytes

/-- The step of a Running core (R101): fetch (R102), decode (R103), execute and advance (`ex`). A fetch fault leaves ir as
it was; an opcode byte outside the table leaves it in ir. -/
def runCycle (c : Config) (ex : Instr → State → Result) (s : State) : Result :=
  s.attempt (memRead s s.pc) fun b =>
  let s1 := s.setIr b
  match decodeWith c (b :: operandBytes s) with
  | .error _ => s1.raise (.unsupportedInstruction b)
  | .ok (i, _) => ex i s1

/-- The step (R100): defined only while Running; in Halted and Faulted there is none. DESIGN CHOICE: safe, log 6. -/
def cycle (c : Config) (ex : Instr → State → Result) (s : State) : Result :=
  match s.status with
  | .running => runCycle c ex s
  | .halted => .fault .halted
  | .faulted => .fault (.faulted s.fault)

/-- The numbered steps of a handler (R106), for any parameters and any way to obtain the operand bytes. -/
def handlerSteps (c : Config) (h : Handler) (op1 op2 : OperandReader) (s : State) : Result :=
  match h with
  | .ldi => ldiSteps c op1 op2 s
  | .prn => prnSteps op1 s
  | .hlt => hltSteps s
  | .add => aluSteps c .add op1 op2 s
  | .sub => aluSteps c .sub op1 op2 s
  | .mul => aluSteps c .mul op1 op2 s
  | .div => aluSteps c .div op1 op2 s
  | .mod => aluSteps c .mod op1 op2 s
  | .push => pushSteps c op1 s
  | .pop => popSteps c op1 s
  | .call => callSteps c op1 s
  | .ret => retSteps c s

/-- How an instruction obtains its first operand byte. -/
def operandOne : Instr → OperandReader
  | .ldi r _ => fetchedOperand r 1
  | .prn r => fetchedOperand r 1
  | .hlt => memOperand 1
  | .add ra _ => fetchedOperand ra 1
  | .sub ra _ => fetchedOperand ra 1
  | .mul ra _ => fetchedOperand ra 1
  | .div ra _ => fetchedOperand ra 1
  | .mod ra _ => fetchedOperand ra 1
  | .push r => fetchedOperand r 1
  | .pop r => fetchedOperand r 1
  | .call r => callOperand r
  | .ret => memOperand 1

/-- How an instruction obtains its second operand byte. -/
def operandTwo : Instr → OperandReader
  | .ldi _ imm => fetchedOperand imm 2
  | .add _ rb => fetchedOperand rb 2
  | .sub _ rb => fetchedOperand rb 2
  | .mul _ rb => fetchedOperand rb 2
  | .div _ rb => fetchedOperand rb 2
  | .mod _ rb => fetchedOperand rb 2
  | .prn _ => memOperand 2
  | .hlt => memOperand 2
  | .push _ => memOperand 2
  | .pop _ => memOperand 2
  | .call _ => memOperand 2
  | .ret => memOperand 2

/-- The effect of one instruction on a core with any parameters (92_eei_decisions.md, open parameters); `exec` is this
with the defaults. -/
def execWith (c : Config) (i : Instr) (s : State) : Result :=
  handlerSteps c i.handler (operandOne i) (operandTwo i) s

/-- The step of a core with any parameters; `step` is this with the defaults. -/
def stepWith (c : Config) (s : State) : Result :=
  cycle c (execWith c) s

/-- R101 read word for word: the handler is found from the opcode byte alone (R87) and reads its operand bytes from
memory itself, each at its own numbered step (R83). -/
def literalStepWith (c : Config) (s : State) : Result :=
  match s.status with
  | .running =>
    s.attempt (memRead s s.pc) fun b =>
    let s1 := s.setIr b
    match lookup c b with
    | none => s1.raise (.unsupportedInstruction b)
    | some h => handlerSteps c h (memOperand 1) (memOperand 2) s1
  | .halted => .fault .halted
  | .faulted => .fault (.faulted s.fault)

/-- Bytes placed at consecutive ascending addresses from `a` (R54, R204); the caller sees to it that they fit. -/
def State.place (s : State) (a : Int) : List Byte → State
  | [] => s
  | b :: bs => State.place (s.setCell a b) (a + 1) bs

/-- A pc from which three bytes can be fetched: the pc itself, or 0 when an instruction of three bytes does not fit
there. -/
def State.fetchablePc (s : State) : Int :=
  if 0 ≤ s.pc ∧ s.pc ≤ 253 then s.pc else 0

/-- The state whose very next step fetches the three bytes of a table word: they stand at the pc (moved to 0 only when
they do not fit there) and the core is Running, which the fetch needs (R100). Log 15. -/
def placeFetchWord (s : State) (nbits w : Nat) : State :=
  ((s.setPc s.fetchablePc).setStatus .running).place s.fetchablePc (tableBytes nbits w)

end Sys2Proof.Machine
end

