-- ==== Sys2Proof/Machine/Dispatch.lean ====
section
/-! DEFINITION. The dispatch of a decoded instruction to its meaning (40_execution_cycle.md R101 steps 4 and 5, R106). -/

namespace Sys2Proof.Machine

/-- The effect of one instruction, the generic advance included, in the state after its fetch (ir holds its opcode
byte, pc its address). -/
def exec (i : Instr) (s : State) : Host.Outcome State Fault Refusal :=
  match i with
  | .ldi r imm => Sys2Proof.Machine.execLdi r imm s
  | .prn r => Sys2Proof.Machine.execPrn r s
  | .hlt => Sys2Proof.Machine.execHlt s
  | .add ra rb => Sys2Proof.Machine.execAdd ra rb s
  | .sub ra rb => Sys2Proof.Machine.execSub ra rb s
  | .mul ra rb => Sys2Proof.Machine.execMul ra rb s
  | .div ra rb => Sys2Proof.Machine.execDiv ra rb s
  | .mod ra rb => Sys2Proof.Machine.execMod ra rb s
  | .push r => Sys2Proof.Machine.execPush r s
  | .pop r => Sys2Proof.Machine.execPop r s
  | .call r => Sys2Proof.Machine.execCall r s
  | .ret => Sys2Proof.Machine.execRet s

end Sys2Proof.Machine
end

