-- ==== Sys2Proof/Machine/Step.lean ====
section
/-! DEFINITION. The step of the core with the spec's default parameters (40_execution_cycle.md R101), and the placing of
the next instruction. -/

namespace Sys2Proof.Machine

/-- One step: one whole instruction (R13, R101). -/
def step (s : State) : Host.Outcome State Fault Refusal :=
  cycle Config.default exec s

/-- The state with an instruction's bytes where the next step fetches. -/
def State.withFetchWord (s : State) (nbits w : Nat) : State :=
  placeFetchWord s nbits w

end Sys2Proof.Machine
end

