-- ==== Sys2Proof/Machine/Flags.lean ====
section
/-! DEFINITION. The one flag of the core, the RunFlag (00_scope.md R12, 10_state.md R32), and the halt signal. There is
no other flag, condition code or predicate (R31): no instruction sets or tests one, so there is no flag computation. -/

namespace Sys2Proof.Machine

/-- The RunFlag: "true exactly when status = Running" (R12). -/
def State.runFlag (s : State) : Bool :=
  s.status == .running

/-- The halt signal the core shows the host: "status = Halted is that signal" (R122). -/
def State.haltSignal (s : State) : Bool :=
  s.status == .halted

end Sys2Proof.Machine
end

