-- ==== Sys2Proof/Machine/Loader.lean ====
section
/-! DEFINITION. What the host does to the core before the run: load and run (70_reset_and_hazards.md R200 to R205). Reset
itself is `State.reset`. -/

namespace Sys2Proof.Machine

/-- `loadBulk(bytes, s)` (R204): each byte at consecutive addresses from `start`; the whole load is refused, with nothing
written, when the bytes do not fit. A refused load is a failure of the host's action, no fault of the core: it answers
the report, and the state is untouched. The report is the spec's decision D13, log 14. -/
def State.loadBulk (s : State) (bytes : List Byte) (start : Int) : Except FaultCause State :=
  if start < 0 ∨ 256 < start + (bytes.length : Int) then .error (.outOfBounds (start + (bytes.length : Int) - 1))
  else .ok (s.place start bytes)

/-- The run event (R201): "the event that sets status = Running". -/
def State.invokeRun (s : State) : State :=
  s.setStatus .running

/-- The launch state of a program image (R205): reset, the image loaded from address 0 (R203), then run. -/
def State.launch (image : List Byte) : Except FaultCause State :=
  match State.reset.loadBulk image 0 with
  | .error e => .error e
  | .ok s => .ok s.invokeRun

end Sys2Proof.Machine
end

