-- ==== Sys2Proof/Machine/Output.lean ====
section
/-! DEFINITION. The byte text of the output channel (10_state.md R33). -/

namespace Sys2Proof.Machine

/-- The ASCII byte of a decimal digit. -/
def digitByte (d : Nat) : Byte :=
  BitVec.ofNat 8 (0x30 + d)

/-- The decimal digits of `n`, most significant first, no leading zero, in front of `acc`; `fuel` above `n` is enough. -/
def decimalDigits : Nat → Nat → List Byte → List Byte
  | 0, _, acc => acc
  | fuel + 1, n, acc =>
    if n < 10 then digitByte n :: acc
    else decimalDigits fuel (n / 10) (digitByte (n % 10) :: acc)

/-- The decimal text of an integer (R33): digits with no leading zero, `0` for zero, a minus sign 0x2D before a negative
number. The minus sign is the spec's decision D11, log 8. -/
def decimalText (v : Int) : List Byte :=
  let digits := decimalDigits (v.natAbs + 1) v.natAbs []
  if v < 0 then 0x2D#8 :: digits else digits

/-- One output line: the decimal text and one line feed byte 0x0A (R33). -/
def outputLine (v : Int) : List Byte :=
  decimalText v ++ [0x0A#8]

/-- The byte stream of the output channel. -/
def State.outBytes (s : State) : List Byte :=
  s.out.flatMap outputLine

end Sys2Proof.Machine
end

