-- ==== Sys2Proof/Safety.lean ====
section
/-! DEFINITION. What counts as a run, an ended run and a safe run, in the terms claims use (40_execution_cycle.md R105,
60_exceptions.md R181, 70_reset_and_hazards.md R208), and the invariant of the machine. -/

namespace Sys2Proof.Machine

/-- A run has ended when the status is Halted or Faulted (R208). -/
abbrev State.Ended (s : State) : Prop :=
  s.status = .halted ∨ s.status = .faulted

/-- The run has ended normally: Halted, and no fault recorded (R181: "a Faulted state is never a successful final
state"). -/
abbrev State.EndedWell (s : State) : Prop :=
  s.status = .halted ∧ s.fault = none

/-- `k` steps from `s`, each of them taken, lead to `t`. -/
def RunsTo (k : Nat) (s t : State) : Prop :=
  Host.Core.run Sys2Proof.core k s = .next t

/-- A state that some run reaches: an image is loaded and run, and steps follow (R202, R205). -/
def Reachable (t : State) : Prop :=
  ∃ image s k, State.launch image = .ok s ∧ RunsTo k s t

/-- The registers hold integers of the range REG_MIN..REG_MAX (R20, R24). -/
def State.regsInRange (c : Config) (s : State) : Prop :=
  ∀ r : Reg, inRange c (s.reg r) = true

/-- The invariant of the machine: memory is in canonical form, and a fault is recorded exactly in the Faulted state
(R34, R180, R181). -/
structure State.Inv (s : State) : Prop where
  /-- memory is in canonical form, all cells below 256 (R50) -/
  memWf : s.mem.wf = true
  /-- a fault record stands exactly in the Faulted state -/
  faultIff : s.status = .faulted ↔ s.fault.isSome = true

/-! ### Terms of the claims -/

/-- The next step fetches an opcode byte `b`: the core is Running and the pc names a cell that holds it (R102). -/
structure State.Fetches (s : State) (b : Byte) : Prop where
  /-- the core fetches only while Running (R100) -/
  running : s.status = .running
  /-- the pc names a cell (R102) -/
  pcValid : validAddress s.pc
  /-- the cell holds the byte -/
  holds : s.cell s.pc = b

/-- The state in which a fault leaves the machine (R180), when the earlier steps of the instruction left `s`. -/
def State.faultedBy (s : State) (e : FaultCause) : State :=
  { s with fault := some { cause := e, opcode := s.ir, pc0 := s.pc }, status := .faulted }

/-- From `s` to `t` either status and fault record are as before, or a fault was entered at the instruction of `s`
(R180). -/
def KeptOrFaulted (s t : State) : Prop :=
  (t.status = s.status ∧ t.fault = s.fault) ∨
    (t.status = .faulted ∧ t.pc = s.pc ∧ ∃ e, t.fault = some { cause := e, opcode := s.ir, pc0 := s.pc })

/-- An operand byte names a register. -/
def OperandNames (o : Operand) (q : Reg) : Prop :=
  ∃ b, o = .byte b ∧ Reg.ofIndex b.toNat = some q

/-- The operands of an instruction that name registers: all but LDI's immediate (R80, R84). -/
def registerOperands : Instr → List Operand
  | .ldi r _ => [r]
  | .prn r => [r]
  | .hlt => []
  | .add ra rb => [ra, rb]
  | .sub ra rb => [ra, rb]
  | .mul ra rb => [ra, rb]
  | .div ra rb => [ra, rb]
  | .mod ra rb => [ra, rb]
  | .push r => [r]
  | .pop r => [r]
  | .call r => [r]
  | .ret => []

/-- The instruction of an ALU operation (R131 to R135). -/
def AluOp.instr : AluOp → Operand → Operand → Instr
  | .add => .add
  | .sub => .sub
  | .mul => .mul
  | .div => .div
  | .mod => .mod

end Sys2Proof.Machine
end

