-- ==== Sys2Proof/Certificates/Slice0/Obligations.lean ====
section
/-! DEFINITION. The statements about the model, for the provers. R<n> is a rule of spec/, D<n> a decision of
spec/92_eei_decisions.md, "log <n>" the model's assumption log. -/

open Sys2Proof Sys2Proof.Machine

/-! ### Encoding -/

/-- R80 to R87: decoding the bytes of a well-formed instruction gives it back, every operand byte at every value, and
leaves the bytes after it; an instruction cut off by the end of memory has none. For every admitted choice of the opcode
values (the values themselves are D3, log 2). -/
def Obligations.DecodeOfEncodeIsTheInstruction : Prop :=
  ∀ (c : Config) (i : Instr) (rest : List Byte), c.valid = true → i.wf = true → (i.complete = true ∨ rest = []) →
    decodeWith c (encodeWith c i ++ rest) = .ok (i, rest)

/-- The other direction: whatever decodes is well-formed and is spelled by exactly the bytes read, and only the end of the
bytes cuts an instruction off. -/
def Obligations.EncodeOfDecodeIsTheBytes : Prop :=
  ∀ (c : Config) (bs rest : List Byte) (i : Instr), decodeWith c bs = .ok (i, rest) →
    i.wf = true ∧ encodeWith c i ++ rest = bs ∧ (i.complete = true ∨ rest = [])

/-- R81: an instruction inside memory has `nops(opcode) + 1` bytes, the count being bits 7:6 of its opcode byte. -/
def Obligations.LengthIsOperandCountPlusOne : Prop :=
  ∀ (c : Config) (i : Instr) (b : Byte) (bs : List Byte), c.valid = true → i.complete = true →
    encodeWith c i = b :: bs → (encodeWith c i).length = (b.extractLsb' 6 2).toNat + 1

/-- R86: an opcode byte that is not one of the twelve of R85 is illegal, the other bytes are not, and 244 byte values are
illegal. The nine values the source does not give are D3 (log 2). -/
def Obligations.ExactlyTwelveOpcodesAreLegal : Prop :=
  (∀ (b : Byte) (rest : List Byte), decode (b :: rest) = .error (.unsupported b) ↔
    b.toNat ∉ [0x82, 0x47, 0x01, 0xA0, 0xA1, 0xA2, 0xA3, 0xA4, 0x45, 0x46, 0x50, 0x11]) ∧
  ((List.range 256).filter fun n => (lookup Config.default (BitVec.ofNat 8 n)).isNone).length = 244

/-- Words written out from the encodings of R80 and R85 decode to the instructions they stand for (opcode values other
than those of LDI, PRN and HLT: D3, log 2). -/
def Obligations.SampleWordsDecode : Prop :=
  decodeTableWord 24 0x080082 = some (.ldi (.byte 0x00#8) (.byte 0x08#8)) ∧
  decodeTableWord 16 0x0747 = some (.prn (.byte 0x07#8)) ∧
  decodeTableWord 8 0x01 = some .hlt ∧
  decodeTableWord 24 0x0201A1 = some (.sub (.byte 0x01#8) (.byte 0x02#8)) ∧
  decodeTableWord 16 0xFF45 = some (.push (.byte 0xFF#8)) ∧
  decodeTableWord 16 0x0250 = some (.call (.byte 0x02#8)) ∧
  decodeTableWord 8 0x00 = none ∧
  decodeTableWord 8 0xC1 = none

/-! ### Memory and registers -/

/-- R51: MemRead answers the byte of the cell inside 0 to 255 and OutOfBounds outside; a read changes nothing, since it
answers no state. -/
def Obligations.MemReadFollowsItsRule : Prop :=
  ∀ (s : State) (a : Int),
    (0 ≤ a ∧ a ≤ 255 → memRead s a = .ok (s.mem.read a.toNat)) ∧
    (a < 0 ∨ 255 < a → memRead s a = .error (.outOfBounds a))

/-- R52: MemWrite. The kind ValueOutOfRange and the order of the two checks are the spec's decisions D2 and D8 (logs 10
and 11). -/
def Obligations.MemWriteFollowsItsRule : Prop :=
  ∀ (s : State) (a v : Int), s.mem.wf = true →
    (a < 0 ∨ 255 < a → memWrite s a v = .error (.outOfBounds a)) ∧
    (0 ≤ a ∧ a ≤ 255 → v < 0 ∨ 255 < v → memWrite s a v = .error (.valueOutOfRange v)) ∧
    (0 ≤ a ∧ a ≤ 255 → 0 ≤ v ∧ v ≤ 255 →
      ∃ t, memWrite s a v = .ok t ∧ t = { s with mem := t.mem } ∧ t.mem.wf = true ∧
        ((t.mem.read a.toNat).toNat : Int) = v ∧
        ∀ b : Nat, (b : Int) ≠ a → t.mem.read b = s.mem.read b)

/-- R23: the eight indices 0 to 7 select eight different registers, a write is seen by the next read of that register
and by no other, and an index above 7 raises InvalidRegister for a read and for a write. -/
def Obligations.RegisterAccessFollowsItsRule : Prop :=
  ∀ (s : State) (i j : Byte) (v : Int),
    (8 ≤ i.toNat → readReg s i = .error (.invalidRegister i) ∧
      writeReg Config.default s i v = .error (.invalidRegister i)) ∧
    (i.toNat < 8 → j.toNat < 8 →
      ∃ t w, writeReg Config.default s i v = .ok t ∧ readReg s j = .ok w ∧
        readReg t j = .ok (if j = i then v else w) ∧ t = { s with x := t.x })

/-! ### The cycle -/

/-- R101: when the bytes at the pc decode to an instruction, the step is that instruction's effect with its opcode byte in
ir; the generic advance is part of the effect. -/
def Obligations.StepRunsTheDecodedInstruction : Prop :=
  ∀ (s : State) (b : Byte) (i : Instr) (rest : List Byte), s.Fetches b →
    decode (b :: operandBytes s) = .ok (i, rest) → step s = exec i (s.setIr b)

/-- R101, R83, R87: the step, which decodes an instruction with its operand bytes, is the step in which the handler is
found from the opcode byte alone and reads each operand byte from memory at its own numbered step; for every choice of
the parameters and in every state (log 7). -/
def Obligations.StepIsTheLiteralReading : Prop :=
  ∀ (c : Config) (s : State), stepWith c s = literalStepWith c s

/-- R7, R21: `exec` and `step` are the core with the default parameters. -/
def Obligations.StepHasTheDefaultParameters : Prop :=
  (∀ (i : Instr) (s : State), exec i s = execWith Config.default i s) ∧
  ∀ s : State, step s = stepWith Config.default s

/-- R102: fetch. A pc outside memory raises OutOfBounds(pc) and ir keeps its value; otherwise, whatever the instruction
then does, ir holds the one byte fetched. -/
def Obligations.FetchFollowsItsRule : Prop :=
  ∀ s : State, s.status = .running →
    (s.pc < 0 ∨ 255 < s.pc → step s = .next (s.faultedBy (.outOfBounds s.pc))) ∧
    (0 ≤ s.pc ∧ s.pc ≤ 255 → ∃ t, step s = .next t ∧ t.ir = s.mem.read s.pc.toNat)

/-- R104: the generic advance. A step that completes without a fault moves the pc by the operand count of its opcode byte
plus 1 for every instruction but CALL and RET, without wrapping: 3 for LDI and the ALU instructions, 2 for PRN, PUSH and
POP, 1 for HLT. CALL and RET set the pc themselves, CALL to the integer in the register its operand byte names and RET to
the byte on top of the stack, with no advance added. For every admitted choice of the parameters. -/
def Obligations.GenericAdvanceFollowsItsRule : Prop :=
  ∀ (c : Config) (s t : State) (b : Byte), c.valid = true → s.Inv → s.Fetches b → stepWith c s = .next t →
    t.status ≠ .faulted →
    (b ≠ c.opcCall → b ≠ c.opcRet → t.pc = s.pc + (nops b : Int) + 1) ∧
    (b ∈ [opcLdi, c.opcAdd, c.opcSub, c.opcMul, c.opcDiv, c.opcMod] → t.pc = s.pc + 3) ∧
    (b ∈ [opcPrn, c.opcPush, c.opcPop] → t.pc = s.pc + 2) ∧
    (b = opcHlt → t.pc = s.pc + 1) ∧
    (b = c.opcCall → ∃ R, Reg.ofIndex (t.cell (s.pc + 1)).toNat = some R ∧ t.pc = t.reg R) ∧
    (b = c.opcRet → t.pc = ((s.cell (s.reg .r7)).toNat : Int))

/-- R100, R210: a Running core always takes its next step: nothing refuses and nothing is stuck. -/
def Obligations.RunningCoreAlwaysSteps : Prop :=
  (∀ (i : Instr) (s : State), ∃ t, exec i s = .next t) ∧
  ∀ s : State, s.status = .running → ∃ t, step s = .next t

/-- R32, R181: a Halted or Faulted core takes no step. That `step` answers a named stop there, the fault record with it,
is the model's choice (log 6). -/
def Obligations.EndedCoreTakesNoStep : Prop :=
  ∀ s : State, (s.status = .halted → step s = .fault .halted) ∧
    (s.status = .faulted → step s = .fault (.faulted s.fault))

/-- R32: only HLT moves Running to Halted, and only a fault moves Running to Faulted: then a fault record was written, and
else none was. That a fault is a status of its own is the spec's decision D22. -/
def Obligations.OnlyHltAndFaultsEndARun : Prop :=
  ∀ s t : State, step s = .next t → s.status = .running ∧
    (t.status = .halted → s.Fetches 0x01#8) ∧
    (t.status = .faulted → ∃ e, t.fault = some { cause := e, opcode := t.ir, pc0 := s.pc }) ∧
    (t.status ≠ .faulted → t.fault = s.fault)

/-- The bytes of a table word, placed for the next fetch, are run by that very step (log 15). -/
def Obligations.PlacedWordIsRunNext : Prop :=
  ∀ (s : State) (nbits w : Nat) (i : Instr), s.mem.wf = true → decodeTableWord nbits w = some i →
    step (s.withFetchWord nbits w) =
      exec i ((s.withFetchWord nbits w).setIr (BitVec.ofNat 8 (w % 2 ^ nbits)))

/-! ### What each instruction does when it completes -/

/-- R120: LDI puts the unsigned immediate byte into the register, changes no other register and advances. -/
def Obligations.LdiLoadsTheImmediate : Prop :=
  ∀ (s : State) (r imm : Byte) (R : Reg), Reg.ofIndex r.toNat = some R →
    exec (.ldi (.byte r) (.byte imm)) s =
      .next { s with x := s.x.set R (imm.toNat : Int), pc := s.pc + (nops s.ir : Int) + 1 }

/-- R121: PRN appends the register's integer to the output and advances; nothing else changes. -/
def Obligations.PrnEmitsTheRegister : Prop :=
  ∀ (s : State) (r : Byte) (R : Reg), Reg.ofIndex r.toNat = some R →
    exec (.prn (.byte r)) s =
      .next { s with out := s.out ++ [s.reg R], pc := s.pc + (nops s.ir : Int) + 1 }

/-- R122: HLT sets the status Halted and advances; nothing else changes. -/
def Obligations.HltHaltsAndAdvances : Prop :=
  ∀ s : State, exec .hlt s = .next { s with status := .halted, pc := s.pc + (nops s.ir : Int) + 1 }

/-- R131, R132, R133, R136: ADD, SUB and MUL put exactly a + b, a - b and a * b into the first operand's register, with no
wrap-around, and advance; a and b are read before the write, so the two registers may be one. -/
def Obligations.AddSubMulAreExact : Prop :=
  ∀ (s : State) (ra rb : Byte) (A B : Reg), Reg.ofIndex ra.toNat = some A → Reg.ofIndex rb.toNat = some B →
    exec (.add (.byte ra) (.byte rb)) s =
      .next { s with x := s.x.set A (s.reg A + s.reg B), pc := s.pc + (nops s.ir : Int) + 1 } ∧
    exec (.sub (.byte ra) (.byte rb)) s =
      .next { s with x := s.x.set A (s.reg A - s.reg B), pc := s.pc + (nops s.ir : Int) + 1 } ∧
    exec (.mul (.byte ra) (.byte rb)) s =
      .next { s with x := s.x.set A (s.reg A * s.reg B), pc := s.pc + (nops s.ir : Int) + 1 }

/-- R134, R135, R137: with a divisor b other than 0, DIV and MOD put into the first operand's register the one quotient q
and remainder r with a = b * q + r, where r is 0 or has the sign of b and |r| < |b|. The rounding for negative operands
is the spec's decision D5 (log 3). -/
def Obligations.DivModAreFloorDivision : Prop :=
  ∀ (s : State) (ra rb : Byte) (A B : Reg), Reg.ofIndex ra.toNat = some A → Reg.ofIndex rb.toNat = some B →
    s.reg B ≠ 0 →
    ∃ q r : Int, s.reg A = s.reg B * q + r ∧ (0 < s.reg B → 0 ≤ r ∧ r < s.reg B) ∧
      (s.reg B < 0 → s.reg B < r ∧ r ≤ 0) ∧
      exec (.div (.byte ra) (.byte rb)) s =
        .next { s with x := s.x.set A q, pc := s.pc + (nops s.ir : Int) + 1 } ∧
      exec (.mod (.byte ra) (.byte rb)) s =
        .next { s with x := s.x.set A r, pc := s.pc + (nops s.ir : Int) + 1 }

/-- R138: with one register named twice the five ALU instructions compute f(a, a). -/
def Obligations.AluWithOneRegisterTwice : Prop :=
  ∀ (s : State) (r : Byte) (R : Reg), Reg.ofIndex r.toNat = some R →
    let put (v : Int) : Result := .next { s with x := s.x.set R v, pc := s.pc + (nops s.ir : Int) + 1 }
    exec (.add (.byte r) (.byte r)) s = put (2 * s.reg R) ∧
    exec (.sub (.byte r) (.byte r)) s = put 0 ∧
    exec (.mul (.byte r) (.byte r)) s = put (s.reg R * s.reg R) ∧
    (s.reg R ≠ 0 → exec (.div (.byte r) (.byte r)) s = put 1 ∧ exec (.mod (.byte r) (.byte r)) s = put 0) ∧
    (s.reg R = 0 → exec (.div (.byte r) (.byte r)) s = .next (s.faultedBy (.divisionByZero r)) ∧
      exec (.mod (.byte r) (.byte r)) s = .next (s.faultedBy (.divisionByZero r)))

/-- R150: PUSH decrements the stack pointer and stores the register's value at the new pointer; pushing R7 stores the
decremented pointer. It completes when that address is a cell and the value a byte. -/
def Obligations.PushStoresAtTheNewPointer : Prop :=
  ∀ (s : State) (r : Byte) (R : Reg) (v : Int), s.mem.wf = true → Reg.ofIndex r.toNat = some R →
    validAddress s.pushSlot → v = (if R = .r7 then s.reg .r7 - 1 else s.reg R) → 0 ≤ v ∧ v ≤ 255 →
    ∃ t, exec (.push (.byte r)) s = .next t ∧
      t = { s with x := s.x.set .r7 (s.reg .r7 - 1), mem := t.mem, pc := s.pc + (nops s.ir : Int) + 1 } ∧
      ((t.cell s.pushSlot).toNat : Int) = v ∧
      ∀ a : Nat, (a : Int) ≠ s.pushSlot → t.mem.read a = s.mem.read a

/-- R151: POP puts the byte at the stack pointer into the register and then increments the pointer; popping into R7
leaves the byte plus 1. Memory is as before. -/
def Obligations.PopLoadsFromThePointer : Prop :=
  ∀ (s : State) (r : Byte) (R : Reg), Reg.ofIndex r.toNat = some R → validAddress s.popSlot →
    ∃ t, exec (.pop (.byte r)) s = .next t ∧
      t = { s with x := t.x, pc := s.pc + (nops s.ir : Int) + 1 } ∧
      (R ≠ .r7 → t.reg R = ((s.cell s.popSlot).toNat : Int) ∧ t.reg .r7 = s.reg .r7 + 1) ∧
      (R = .r7 → t.reg .r7 = ((s.cell s.popSlot).toNat : Int) + 1) ∧
      ∀ q, q ≠ R → q ≠ .r7 → t.reg q = s.reg q

/-- R160: CALL decrements the stack pointer, stores the return address `pc0 + nops(ir) + 1` at the new pointer, and goes
to the value of the register its operand byte names; calling R7 goes to the decremented pointer. The operand byte is read
after the store, so a store that lands on it, at pc0 + 1, gives the register. -/
def Obligations.CallPushesTheReturnAddress : Prop :=
  ∀ (s : State) (r e : Byte) (R : Reg), s.mem.wf = true → validAddress s.pushSlot →
    0 ≤ s.pc + (nops s.ir : Int) + 1 → s.pc + (nops s.ir : Int) + 1 ≤ 255 →
    e = (if s.pushSlot = s.pc + 1 then BitVec.ofNat 8 (s.pc + (nops s.ir : Int) + 1).toNat else r) →
    Reg.ofIndex e.toNat = some R →
    ∃ t, exec (.call (.byte r)) s = .next t ∧
      t = { s with
        x := s.x.set .r7 (s.reg .r7 - 1), mem := t.mem,
        pc := if R = .r7 then s.reg .r7 - 1 else s.reg R } ∧
      ((t.cell s.pushSlot).toNat : Int) = s.pc + (nops s.ir : Int) + 1 ∧
      ∀ a : Nat, (a : Int) ≠ s.pushSlot → t.mem.read a = s.mem.read a

/-- R161: RET goes to the byte at the stack pointer and increments the pointer; nothing else changes. -/
def Obligations.RetGoesToTheTopOfTheStack : Prop :=
  ∀ s : State, validAddress s.popSlot →
    exec .ret s =
      .next { s with x := s.x.set .r7 (s.reg .r7 + 1), pc := ((s.cell s.popSlot).toNat : Int) }

/-! ### Frames -/

/-- Frame of LDI and the ALU instructions (R25, R106): only the first operand's register can change; no byte of memory,
not ir, no output; status and fault record only by a fault. The order of the checks (D8, log 11) does not matter here. -/
def Obligations.LoadAndAluFrame : Prop :=
  ∀ (s t : State) (o1 o2 : Operand) (i : Instr),
    i ∈ [Instr.ldi o1 o2, .add o1 o2, .sub o1 o2, .mul o1 o2, .div o1 o2, .mod o1 o2] → exec i s = .next t →
    (∀ q, ¬ OperandNames o1 q → t.reg q = s.reg q) ∧
    (∀ a : Nat, t.mem.read a = s.mem.read a) ∧
    t.ir = s.ir ∧ t.out = s.out ∧ KeptOrFaulted s t

/-- Frame of PRN and HLT (R25, R106): no register, no byte of memory, not ir. PRN leaves the status or enters a fault, and
what was emitted before stays; HLT emits nothing and leaves the fault record. -/
def Obligations.PrnHltFrame : Prop :=
  (∀ (s t : State) (o : Operand), exec (.prn o) s = .next t →
    (∀ q, t.reg q = s.reg q) ∧ (∀ a : Nat, t.mem.read a = s.mem.read a) ∧ t.ir = s.ir ∧ KeptOrFaulted s t ∧
    (t.status = .faulted → s.status ≠ .faulted → t.out = s.out) ∧ (t.out = s.out ∨ ∃ v, t.out = s.out ++ [v])) ∧
  ∀ s t : State, exec .hlt s = .next t →
    (∀ q, t.reg q = s.reg q) ∧ (∀ a : Nat, t.mem.read a = s.mem.read a) ∧ t.ir = s.ir ∧ t.fault = s.fault ∧
    t.out = s.out

/-- Frame of PUSH and CALL (R25, R106): of the registers only the stack pointer, of memory only the byte at the
decremented stack pointer, no output, not ir; status and fault record only by a fault. -/
def Obligations.PushCallFrame : Prop :=
  ∀ (s t : State) (o : Operand) (i : Instr), i ∈ [Instr.push o, .call o] → exec i s = .next t →
    (∀ q, q ≠ .r7 → t.reg q = s.reg q) ∧
    (∀ a : Nat, (a : Int) ≠ s.pushSlot → t.mem.read a = s.mem.read a) ∧
    t.ir = s.ir ∧ t.out = s.out ∧ KeptOrFaulted s t

/-- Frame of POP and RET (R25, R106): of the registers only the stack pointer and POP's destination, no byte of memory, no
output, not ir; status and fault record only by a fault. -/
def Obligations.PopRetFrame : Prop :=
  (∀ (s t : State) (o : Operand), exec (.pop o) s = .next t →
    (∀ q, q ≠ .r7 → ¬ OperandNames o q → t.reg q = s.reg q) ∧
    (∀ a : Nat, t.mem.read a = s.mem.read a) ∧ t.ir = s.ir ∧ t.out = s.out ∧ KeptOrFaulted s t) ∧
  ∀ s t : State, exec .ret s = .next t →
    (∀ q, q ≠ .r7 → t.reg q = s.reg q) ∧
    (∀ a : Nat, t.mem.read a = s.mem.read a) ∧ t.ir = s.ir ∧ t.out = s.out ∧ KeptOrFaulted s t

/-- R53 and 90_conflicts.md C2: a step changes memory only by PUSH or CALL, and only the cell at the decremented stack
pointer. -/
def Obligations.OnlyPushAndCallWriteMemory : Prop :=
  ∀ (s t : State) (a : Nat), step s = .next t → t.mem.read a ≠ s.mem.read a →
    (s.Fetches 0x45#8 ∨ s.Fetches 0x50#8) ∧ (a : Int) = s.reg .r7 - 1

/-- R33: only PRN appends to the output, one integer, that of the register it names, and no step removes or changes what
was emitted. -/
def Obligations.OnlyPrnAppendsToTheOutput : Prop :=
  ∀ s t : State, step s = .next t →
    t.out = s.out ∨
      ∃ R, s.Fetches 0x47#8 ∧ validAddress (s.pc + 1) ∧ Reg.ofIndex (s.cell (s.pc + 1)).toNat = some R ∧
        t.out = s.out ++ [s.reg R]

/-! ### Faults -/

/-- R121: PRN as a step, whole: an operand byte past the end of memory, then an invalid index, are found before anything
is emitted; else one line is emitted, the decimal text (D11, log 8) and a line feed byte. -/
def Obligations.PrnStepFollowsItsRule : Prop :=
  ∀ s : State, s.Fetches 0x47#8 →
    (s.pc = 255 → step s = .next ((s.setIr 0x47#8).faultedBy (.outOfBounds 256))) ∧
    (s.pc ≠ 255 → 8 ≤ (s.cell (s.pc + 1)).toNat →
      step s = .next ((s.setIr 0x47#8).faultedBy (.invalidRegister (s.cell (s.pc + 1))))) ∧
    (s.pc ≠ 255 → ∀ R, Reg.ofIndex (s.cell (s.pc + 1)).toNat = some R →
      ∃ t, step s = .next t ∧ t = { s with ir := 0x47#8, out := s.out ++ [s.reg R], pc := s.pc + 2 } ∧
        t.outBytes = s.outBytes ++ decimalText (s.reg R) ++ [0x0A#8])

/-- R122: HLT as a step, whole: it cannot fault, the advance is applied even at address 255, it is the only instruction
that ends a run normally, and no step follows it. -/
def Obligations.HltStepFollowsItsRule : Prop :=
  (∀ s : State, s.Fetches 0x01#8 →
    step s = .next { s with ir := 0x01#8, status := .halted, pc := s.pc + 1 }) ∧
  (∀ s t : State, step s = .next t → t.status = .halted → s.Fetches 0x01#8) ∧
  ∀ s t : State, s.status = .halted → step s ≠ .next t

/-- R173: a fetched byte that is not one of the twelve opcode values raises UnsupportedInstruction with that byte and the
current pc; only ir, status and the fault record change, and no further instruction executes. Any other byte raises no
UnsupportedInstruction. For every choice of the parameters. -/
def Obligations.UnsupportedInstructionFollowsItsRule : Prop :=
  ∀ (c : Config) (s : State) (b : Byte), s.Fetches b →
    ((∀ h : Handler, h.opcode c ≠ b) →
      ∃ t, stepWith c s = .next t ∧
        t = { s with
          ir := b, status := .faulted,
          fault := some { cause := .unsupportedInstruction b, opcode := b, pc0 := s.pc } } ∧
        ∀ u, stepWith c t ≠ .next u) ∧
    ((∃ h : Handler, h.opcode c = b) → s.fault = none →
      ∀ t r n, stepWith c s = .next t → t.fault = some r → r.cause ≠ .unsupportedInstruction n)

/-- R174: DIV and MOD by a register that holds 0 raise DivisionByZero with the index of that register, whatever the
dividend, and change no register; and nothing else raises it. For every admitted choice of the parameters. -/
def Obligations.DivisionByZeroFollowsItsRule : Prop :=
  (∀ (c : Config) (s : State) (b ra rb : Byte) (A B : Reg), c.valid = true → s.Fetches b → b = c.opcDiv ∨ b = c.opcMod →
    s.pc ≤ 253 → s.cell (s.pc + 1) = ra → s.cell (s.pc + 2) = rb → Reg.ofIndex ra.toNat = some A →
    Reg.ofIndex rb.toNat = some B → s.reg B = 0 →
    ∃ t, stepWith c s = .next t ∧ t = (s.setIr b).faultedBy (.divisionByZero rb) ∧ ∀ q, t.reg q = s.reg q) ∧
  ∀ (c : Config) (s t : State) (r : FaultRecord) (rb : Byte), s.status = .running → s.fault = none →
    stepWith c s = .next t → t.fault = some r → r.cause = .divisionByZero rb →
    (s.Fetches c.opcDiv ∨ s.Fetches c.opcMod) ∧ s.cell (s.pc + 2) = rb ∧
      ∃ B, Reg.ofIndex rb.toNat = some B ∧ s.reg B = 0

/-- R172, R83: an operand byte 8 to 255 used as a register index raises InvalidRegister with that byte, in every
instruction that takes a register operand and with the effect of the steps before: PUSH has decremented the stack
pointer, CALL has stored the return address too. In the ALU instructions the first register is checked first (D8, log
11). -/
def Obligations.InvalidRegisterTraps : Prop :=
  ∀ (s : State) (r : Byte), 8 ≤ r.toNat →
    (∀ imm : Byte, exec (.ldi (.byte r) (.byte imm)) s = .next (s.faultedBy (.invalidRegister r))) ∧
    exec (.prn (.byte r)) s = .next (s.faultedBy (.invalidRegister r)) ∧
    (∀ (op : AluOp) (rb : Byte),
      exec (op.instr (.byte r) (.byte rb)) s = .next (s.faultedBy (.invalidRegister r))) ∧
    (∀ (op : AluOp) (ra : Byte), ra.toNat < 8 →
      exec (op.instr (.byte ra) (.byte r)) s = .next (s.faultedBy (.invalidRegister r))) ∧
    exec (.push (.byte r)) s = .next ((s.setReg .r7 s.pushSlot).faultedBy (.invalidRegister r)) ∧
    (validAddress s.popSlot → exec (.pop (.byte r)) s = .next (s.faultedBy (.invalidRegister r))) ∧
    (validAddress s.pushSlot → s.pushSlot ≠ s.pc + 1 → 0 ≤ s.pc + (nops s.ir : Int) + 1 →
      s.pc + (nops s.ir : Int) + 1 ≤ 255 →
      exec (.call (.byte r)) s =
        .next (((s.setReg .r7 s.pushSlot).setCell s.pushSlot
          (BitVec.ofNat 8 (s.pc + (nops s.ir : Int) + 1).toNat)).faultedBy (.invalidRegister r)))

/-- R63, R171: an operand byte past the end of memory raises OutOfBounds of its address, which is 256; PUSH has
decremented the stack pointer by then, POP has read the stack first. -/
def Obligations.OperandPastMemoryTraps : Prop :=
  ∀ s : State, s.status = .running →
    (∀ b : Byte, s.Fetches b → b.toNat ∈ [0x82, 0xA0, 0xA1, 0xA2, 0xA3, 0xA4] → s.pc = 254 ∨ s.pc = 255 →
      step s = .next ((s.setIr b).faultedBy (.outOfBounds 256))) ∧
    (s.Fetches 0x47#8 → s.pc = 255 → step s = .next ((s.setIr 0x47#8).faultedBy (.outOfBounds 256))) ∧
    (s.Fetches 0x45#8 → s.pc = 255 →
      step s = .next (((s.setIr 0x45#8).setReg .r7 s.pushSlot).faultedBy (.outOfBounds 256))) ∧
    (s.Fetches 0x46#8 → s.pc = 255 → validAddress s.popSlot →
      step s = .next ((s.setIr 0x46#8).faultedBy (.outOfBounds 256)))

/-- R63, R150, R151, R160, R161, R176: the faults of the stack accesses. A pointer that names no cell raises OutOfBounds of
it, whatever the value; a value or a return address that is no byte raises ValueOutOfRange, and memory is as before (D2,
D8, logs 10 and 11). PUSH and CALL leave the pointer decremented, POP and RET leave it. -/
def Obligations.StackAccessTraps : Prop :=
  ∀ (s : State) (r : Byte) (R : Reg), Reg.ofIndex r.toNat = some R →
    let v := if R = .r7 then s.pushSlot else s.reg R
    let back := s.pc + (nops s.ir : Int) + 1
    (¬ validAddress s.pushSlot →
      exec (.push (.byte r)) s = .next ((s.setReg .r7 s.pushSlot).faultedBy (.outOfBounds s.pushSlot)) ∧
      exec (.call (.byte r)) s = .next ((s.setReg .r7 s.pushSlot).faultedBy (.outOfBounds s.pushSlot))) ∧
    (validAddress s.pushSlot → v < 0 ∨ 255 < v →
      exec (.push (.byte r)) s = .next ((s.setReg .r7 s.pushSlot).faultedBy (.valueOutOfRange v))) ∧
    (validAddress s.pushSlot → back < 0 ∨ 255 < back →
      exec (.call (.byte r)) s = .next ((s.setReg .r7 s.pushSlot).faultedBy (.valueOutOfRange back))) ∧
    (¬ validAddress s.popSlot →
      exec (.pop (.byte r)) s = .next (s.faultedBy (.outOfBounds s.popSlot)) ∧
      exec .ret s = .next (s.faultedBy (.outOfBounds s.popSlot)))

/-- R180: a step that ends in a fault records the kind, the opcode byte in ir and the pc, keeps the pc and the output, and
leaves registers and memory as before, except that PUSH and CALL may have decremented the stack pointer and CALL may have
stored its return address. That the post-fault state is kept is the spec's decision D9 (log 13). -/
def Obligations.FaultsArePrecise : Prop :=
  ∀ s t : State, s.Inv → step s = .next t → t.status = .faulted →
    (∃ e, t.fault = some { cause := e, opcode := t.ir, pc0 := s.pc }) ∧ t.pc = s.pc ∧ t.out = s.out ∧
    (∀ q, q ≠ .r7 → t.reg q = s.reg q) ∧
    (t.reg .r7 = s.reg .r7 ∨ ((s.Fetches 0x45#8 ∨ s.Fetches 0x50#8) ∧ t.reg .r7 = s.reg .r7 - 1)) ∧
    ∀ a : Nat, t.mem.read a = s.mem.read a ∨
      (s.Fetches 0x50#8 ∧ (a : Int) = s.reg .r7 - 1 ∧ ((t.mem.read a).toNat : Int) = s.pc + 2)

/-- R177, R175: which instruction can raise which kind, under the default parameters; UnsupportedOperation is never
raised, and HLT raises nothing. -/
def Obligations.WhichInstructionRaisesWhichFault : Prop :=
  ∀ (s t : State) (i : Instr) (r : FaultRecord), s.fault = none → exec i s = .next t → t.fault = some r →
    i.handler ≠ .hlt ∧
    match r.cause with
    | .unsupportedInstruction _ => False
    | .unsupportedOperation => False
    | .invalidRegister n => i.handler ≠ .ret ∧ 8 ≤ n.toNat
    | .outOfBounds a => a < 0 ∨ 255 < a ∨ ∃ o ∈ i.operands, o = .beyond
    | .divisionByZero _ => i.handler = .div ∨ i.handler = .mod
    | .valueOutOfRange v => (i.handler = .push ∨ i.handler = .call) ∧ (v < 0 ∨ 255 < v)

/-! ### Whole-machine rules -/

/-- The reset state (R37, R200). The values of pc, ir, fault and out are the spec's decision D6 (log 4); the status is the
launch state's, as R37 allows (log 5). -/
def Obligations.ResetLeavesTheStatedValues : Prop :=
  (∀ q : Reg, State.reset.reg q = if q = .r7 then 0xF4 else 0) ∧
  (∀ a : Nat, State.reset.mem.read a = 0#8) ∧
  State.reset.pc = 0 ∧ State.reset.ir = 0#8 ∧ State.reset.status = .running ∧ State.reset.fault = none ∧
  State.reset.out = []

/-- The invariant holds after reset. -/
def Obligations.ResetMeetsTheInvariant : Prop :=
  State.reset.Inv

/-- From every state that meets it, a step keeps the invariant: memory stays in canonical form with every cell a byte of
the 256 (R35, R50), and a fault record stands exactly in the Faulted state (R34, R180, R181). -/
def Obligations.StepKeepsTheInvariant : Prop :=
  ∀ s t : State, s.Inv → step s = .next t → t.Inv

/-- R20, R24 (D1, log 1): for every register range, the registers stay inside it, whatever the program; and when the
parameters are admitted ones they are inside it after reset. -/
def Obligations.RegistersStayInTheirRange : Prop :=
  (∀ (c : Config) (s t : State), s.regsInRange c → stepWith c s = .next t → t.regsInRange c) ∧
  ∀ c : Config, c.valid = true → State.reset.regsInRange c

/-- R24, R136 (D1, log 1): with a finite register range an ALU result that fits is written, one that does not raises
ValueOutOfRange of it, and the destination is unchanged. -/
def Obligations.FiniteRangeAluFaults : Prop :=
  ∀ (c : Config) (s : State) (op : AluOp) (ra rb : Byte) (A B : Reg),
    Reg.ofIndex ra.toNat = some A → Reg.ofIndex rb.toNat = some B → (op.divides = true → s.reg B ≠ 0) →
    let v := op.apply c (s.reg A) (s.reg B)
    ((∀ m, c.regMin = some m → m ≤ v) → (∀ m, c.regMax = some m → v ≤ m) →
      execWith c (op.instr (.byte ra) (.byte rb)) s =
        .next { s with x := s.x.set A v, pc := s.pc + (nops s.ir : Int) + 1 }) ∧
    (((∃ m, c.regMin = some m ∧ v < m) ∨ ∃ m, c.regMax = some m ∧ m < v) →
      execWith c (op.instr (.byte ra) (.byte rb)) s = .next (s.faultedBy (.valueOutOfRange v)))

/-- R150, R151, R160, R161 with a finite register range (D1, log 1): a stack pointer that cannot be moved raises
ValueOutOfRange. PUSH, CALL and RET then change nothing, and POP has written its destination. -/
def Obligations.FiniteRangeStackPointerFaults : Prop :=
  ∀ (c : Config) (s : State) (r : Byte) (R : Reg), c.valid = true → Reg.ofIndex r.toNat = some R →
    (inRange c (s.reg .r7 - 1) = false →
      execWith c (.push (.byte r)) s = .next (s.faultedBy (.valueOutOfRange (s.reg .r7 - 1))) ∧
      execWith c (.call (.byte r)) s = .next (s.faultedBy (.valueOutOfRange (s.reg .r7 - 1)))) ∧
    (validAddress s.popSlot → inRange c (s.reg .r7 + 1) = false →
      execWith c .ret s = .next (s.faultedBy (.valueOutOfRange (s.reg .r7 + 1))) ∧
      (R ≠ .r7 →
        execWith c (.pop (.byte r)) s =
          .next ((s.setReg R ((s.cell s.popSlot).toNat : Int)).faultedBy (.valueOutOfRange (s.reg .r7 + 1)))))

/-- D5: with DIV_ROUND = truncate, DIV leaves a quotient rounded toward zero: the remainder that MOD leaves is 0 or has
the sign of the dividend. -/
def Obligations.TruncatingDivision : Prop :=
  ∀ (c : Config) (a b : Int), c.divRound = .truncate → b ≠ 0 →
    a = b * AluOp.apply c .div a b + AluOp.apply c .mod a b ∧ |AluOp.apply c .mod a b| < |b| ∧
    (0 ≤ a → 0 ≤ AluOp.apply c .mod a b) ∧ (a ≤ 0 → AluOp.apply c .mod a b ≤ 0)

/-- R26, R178: R5 (interrupt mask) and R6 (interrupt status) are inert. When the instruction to be run does not name the
register, the step does the same whatever it holds, and leaves it alone: nothing reads it, nothing sets a bit in it. (A
CALL names the register of the byte its own store puts at its operand address.) -/
def Obligations.ReservedRegistersAreInert : Prop :=
  ∀ (s : State) (q : Reg) (v : Int), s.Inv → q = .r5 ∨ q = .r6 →
    (∀ b i rest, s.Fetches b → decode (b :: operandBytes s) = .ok (i, rest) →
      ∀ o ∈ registerOperands i, ¬ OperandNames o q) →
    (s.Fetches 0x50#8 → s.pushSlot = s.pc + 1 → Reg.ofIndex (s.pc + 2).toNat ≠ some q) →
    (∀ t, step s = .next t → step (s.setReg q v) = .next (t.setReg q v) ∧ t.reg q = s.reg q) ∧
    (∀ f, step s = .fault f → step (s.setReg q v) = .fault f)

/-- R105: a run that does not end needs CALL or RET. From any Running state, if no state of the next 257 that is still
Running stands at a CALL or RET byte, the run ends within 257 steps. -/
def Obligations.RunWithoutCallOrRetEnds : Prop :=
  ∀ s : State, s.status = .running →
    (∀ k t, k ≤ 257 → RunsTo k s t → ¬ t.Fetches 0x50#8 ∧ ¬ t.Fetches 0x11#8) →
    ∃ k t, k ≤ 257 ∧ RunsTo k s t ∧ t.Ended

/-- R120, S3a: LDI of a byte followed by PRN of the same register emits exactly that byte's decimal text and a line
feed. -/
def Obligations.LdiThenPrnEmitsTheByte : Prop :=
  ∀ (s : State) (r v : Byte), s.Fetches 0x82#8 → s.pc ≤ 251 → r.toNat < 8 →
    s.cell (s.pc + 1) = r → s.cell (s.pc + 2) = v → s.cell (s.pc + 3) = 0x47#8 → s.cell (s.pc + 4) = r →
    ∃ t, RunsTo 2 s t ∧ t.status = .running ∧ t.pc = s.pc + 5 ∧ t.out = s.out ++ [(v.toNat : Int)] ∧
      t.outBytes = s.outBytes ++ decimalText (v.toNat : Int) ++ [0x0A#8]

/-- R33: the decimal text of a natural number has the digits 0 to 9 only, spells the number, and has no leading zero
(`0` is the text of 0); a negative number is a minus sign before the text of its absolute value. The text form is the
spec's decision D11 (log 8). -/
def Obligations.DecimalTextSpellsTheInteger : Prop :=
  (∀ n : Nat, (∀ b ∈ decimalText (n : Int), 0x30 ≤ b.toNat ∧ b.toNat ≤ 0x39) ∧
    (decimalText (n : Int)).foldl (fun acc b => 10 * acc + (b.toNat - 0x30)) 0 = n ∧
    (n ≠ 0 → (decimalText (n : Int)).head? ≠ some 0x30#8)) ∧
  decimalText 0 = [0x30#8] ∧
  ∀ n : Nat, decimalText (-((n : Int) + 1)) = 0x2D#8 :: decimalText ((n : Int) + 1)

/-- R152: PUSH r followed at once by POP r' leaves r' with the value r had and the stack pointer as before, under the
conditions the spec gives: neither register is R7, the value is a byte, and the pushed cell is valid and none of the two
bytes of the POP. -/
def Obligations.PushThenPopRoundTrip : Prop :=
  ∀ (s : State) (r r' : Byte) (R R' : Reg), s.Inv → s.Fetches 0x45#8 → s.pc ≤ 252 →
    s.cell (s.pc + 1) = r → s.cell (s.pc + 2) = 0x46#8 → s.cell (s.pc + 3) = r' →
    Reg.ofIndex r.toNat = some R → Reg.ofIndex r'.toNat = some R' → R ≠ .r7 → R' ≠ .r7 →
    0 ≤ s.reg R → s.reg R ≤ 255 → validAddress (s.reg .r7 - 1) →
    s.reg .r7 - 1 ≠ s.pc + 2 → s.reg .r7 - 1 ≠ s.pc + 3 →
    ∃ t, RunsTo 2 s t ∧ t.status = .running ∧ t.pc = s.pc + 4 ∧ t.reg R' = s.reg R ∧ t.reg .r7 = s.reg .r7 ∧
      ∀ q, q ≠ R' → t.reg q = s.reg q

/-- R162: whatever the called routine did, if at its RET the stack pointer is what it was on entry and the cell with the
return address is unchanged, RET goes to the instruction after the CALL and restores the stack pointer. -/
def Obligations.CallThenRetRoundTrip : Prop :=
  ∀ s s1 u : State, s.Inv → s.Fetches 0x50#8 → step s = .next s1 → s1.status = .running →
    u.Fetches 0x11#8 → u.reg .r7 = s1.reg .r7 → u.cell (s1.reg .r7) = s1.cell (s1.reg .r7) →
    ∃ t, step u = .next t ∧ t.status = .running ∧ t.pc = s.pc + 2 ∧ t.reg .r7 = s.reg .r7

/-- R61: a byte written by PUSH is seen by the very next fetch. -/
def Obligations.NextFetchSeesThePushedByte : Prop :=
  ∀ (s t u : State) (R : Reg), s.Inv → s.Fetches 0x45#8 → s.pc ≤ 253 → s.reg .r7 - 1 = s.pc + 2 →
    Reg.ofIndex (s.cell (s.pc + 1)).toNat = some R → R ≠ .r7 → step s = .next t → t.status = .running →
    step t = .next u → (u.ir.toNat : Int) = s.reg R

/-- R204: bulk load. What does not fit is refused with nothing written (the report is the spec's decision D13, log 14);
what fits is written to consecutive cells, and every other cell and everything else is as before. -/
def Obligations.LoadBulkFollowsItsRule : Prop :=
  ∀ (s : State) (bytes : List Byte) (start : Int),
    (start < 0 ∨ 256 < start + (bytes.length : Int) →
      s.loadBulk bytes start = .error (.outOfBounds (start + (bytes.length : Int) - 1))) ∧
    (0 ≤ start → start + (bytes.length : Int) ≤ 256 → s.mem.wf = true →
      ∃ t, s.loadBulk bytes start = .ok t ∧ t = { s with mem := t.mem } ∧ t.mem.wf = true ∧
        (∀ i : Nat, i < bytes.length → some (t.mem.read (start.toNat + i)) = bytes[i]?) ∧
        ∀ a : Nat, (a : Int) < start ∨ start + (bytes.length : Int) ≤ (a : Int) → t.mem.read a = s.mem.read a)

/-- R205: the launch state of every image that fits: the reset state with the image in memory from address 0, zeros after
it, and status Running. -/
def Obligations.LaunchStateFollowsItsRule : Prop :=
  ∀ image : List Byte, image.length ≤ 256 →
    ∃ s, State.launch image = .ok s ∧ (∀ q : Reg, q ≠ .r7 → s.reg q = 0) ∧ s.reg .r7 = 0xF4 ∧ s.pc = 0 ∧
      s.ir = 0#8 ∧ s.fault = none ∧ s.out = [] ∧ s.status = .running ∧
      (∀ i : Nat, i < image.length → some (s.mem.read i) = image[i]?) ∧
      ∀ a : Nat, image.length ≤ a → s.mem.read a = 0#8

/-- R37, R57, R62: a state that a run from an image reaches meets the invariant. -/
def Obligations.ReachableStatesMeetTheInvariant : Prop :=
  ∀ t : State, Reachable t → t.Inv
end

