-- ==== Sys2Proof/Laws/Decode.lean ====
section
/-! SUPPORT. The laws of the opcode map and of taking operand bytes (30_encoding.md R80 to R87). -/

namespace Sys2Proof

@[simp] theorem takeOperand_cons (b : Byte) (bs : List Byte) : takeOperand (b :: bs) = (.byte b, bs) := rfl

@[simp] theorem takeOperand_nil : takeOperand [] = (.beyond, []) := rfl

/-- The default parameters meet the constraints the spec puts on them (R7, R85). -/
theorem Config.default_valid : Config.default.valid = true := by decide

/-- A handler found for a byte has that byte as its opcode, whatever the parameters (R103: a whole-byte match). -/
theorem opcode_of_lookup (c : Config) (b : Byte) (h : Handler) (hl : lookup c b = some h) : h.opcode c = b := by
  simpa using List.find?_some hl

/-- With pairwise distinct opcode values every handler is found by its own opcode (R85). -/
theorem lookup_opcode (c : Config) (h : Handler) (hc : c.valid = true) : lookup c (h.opcode c) = some h := by
  simp only [Config.valid, Bool.and_eq_true, decide_eq_true_eq] at hc
  obtain ⟨⟨_, hn⟩, _⟩ := hc
  have hmem : h ∈ Handler.all := by cases h <;> decide
  cases hl : lookup c (h.opcode c) with
  | none =>
    have := List.find?_eq_none.mp hl h hmem
    simp at this
  | some g =>
    have hg : g ∈ Handler.all := List.mem_of_find?_eq_some hl
    rw [List.inj_on_of_nodup_map hn hg hmem (opcode_of_lookup c _ g hl)]

/-- Bits 7:6 of every opcode spell the operand count of its format (R81, R85). -/
theorem nops_opcode (c : Config) (h : Handler) (hc : c.valid = true) : nops (h.opcode c) = h.arity := by
  simp only [Config.valid, Bool.and_eq_true, List.all_eq_true, beq_iff_eq] at hc
  exact hc.2 h (by cases h <;> decide)

end Sys2Proof
end

