-- ==== Sys2Proof/Laws/State.lean ====
section
/-! SUPPORT. One lemma for each field of each update of State, true by definition, so that no proof unfolds a record
update. -/

namespace Sys2Proof.Machine

variable (s : State) (i : Reg) (v a t : Int) (b : Byte) (st : Status)

/-! `setReg` -/

@[simp] theorem State.setReg_x : (s.setReg i v).x = s.x.set i v := rfl
@[simp] theorem State.setReg_pc : (s.setReg i v).pc = s.pc := rfl
@[simp] theorem State.setReg_ir : (s.setReg i v).ir = s.ir := rfl
@[simp] theorem State.setReg_mem : (s.setReg i v).mem = s.mem := rfl
@[simp] theorem State.setReg_status : (s.setReg i v).status = s.status := rfl
@[simp] theorem State.setReg_fault : (s.setReg i v).fault = s.fault := rfl
@[simp] theorem State.setReg_out : (s.setReg i v).out = s.out := rfl
@[simp] theorem State.setReg_nextPc : (s.setReg i v).nextPc = s.nextPc := rfl
@[simp] theorem State.setReg_cell : (s.setReg i v).cell a = s.cell a := rfl

/-! `setCell` -/

@[simp] theorem State.setCell_x : (s.setCell a b).x = s.x := rfl
@[simp] theorem State.setCell_pc : (s.setCell a b).pc = s.pc := rfl
@[simp] theorem State.setCell_ir : (s.setCell a b).ir = s.ir := rfl
@[simp] theorem State.setCell_mem : (s.setCell a b).mem = s.mem.write a.toNat b := rfl
@[simp] theorem State.setCell_status : (s.setCell a b).status = s.status := rfl
@[simp] theorem State.setCell_fault : (s.setCell a b).fault = s.fault := rfl
@[simp] theorem State.setCell_out : (s.setCell a b).out = s.out := rfl
@[simp] theorem State.setCell_reg : (s.setCell a b).reg i = s.reg i := rfl
@[simp] theorem State.setCell_nextPc : (s.setCell a b).nextPc = s.nextPc := rfl

/-! `emit` -/

@[simp] theorem State.emit_x : (s.emit v).x = s.x := rfl
@[simp] theorem State.emit_pc : (s.emit v).pc = s.pc := rfl
@[simp] theorem State.emit_ir : (s.emit v).ir = s.ir := rfl
@[simp] theorem State.emit_mem : (s.emit v).mem = s.mem := rfl
@[simp] theorem State.emit_status : (s.emit v).status = s.status := rfl
@[simp] theorem State.emit_fault : (s.emit v).fault = s.fault := rfl
@[simp] theorem State.emit_out : (s.emit v).out = s.out ++ [v] := rfl
@[simp] theorem State.emit_reg : (s.emit v).reg i = s.reg i := rfl
@[simp] theorem State.emit_nextPc : (s.emit v).nextPc = s.nextPc := rfl
@[simp] theorem State.emit_cell : (s.emit v).cell a = s.cell a := rfl

/-! `setIr` -/

@[simp] theorem State.setIr_x : (s.setIr b).x = s.x := rfl
@[simp] theorem State.setIr_pc : (s.setIr b).pc = s.pc := rfl
@[simp] theorem State.setIr_ir : (s.setIr b).ir = b := rfl
@[simp] theorem State.setIr_mem : (s.setIr b).mem = s.mem := rfl
@[simp] theorem State.setIr_status : (s.setIr b).status = s.status := rfl
@[simp] theorem State.setIr_fault : (s.setIr b).fault = s.fault := rfl
@[simp] theorem State.setIr_out : (s.setIr b).out = s.out := rfl
@[simp] theorem State.setIr_reg : (s.setIr b).reg i = s.reg i := rfl
@[simp] theorem State.setIr_nextPc : (s.setIr b).nextPc = s.pc + (nops b : Int) + 1 := rfl
@[simp] theorem State.setIr_cell : (s.setIr b).cell a = s.cell a := rfl
@[simp] theorem State.setIr_pushSlot : (s.setIr b).pushSlot = s.pushSlot := rfl
@[simp] theorem State.setIr_popSlot : (s.setIr b).popSlot = s.popSlot := rfl

/-! `setStatus` -/

@[simp] theorem State.setStatus_x : (s.setStatus st).x = s.x := rfl
@[simp] theorem State.setStatus_pc : (s.setStatus st).pc = s.pc := rfl
@[simp] theorem State.setStatus_ir : (s.setStatus st).ir = s.ir := rfl
@[simp] theorem State.setStatus_mem : (s.setStatus st).mem = s.mem := rfl
@[simp] theorem State.setStatus_status : (s.setStatus st).status = st := rfl
@[simp] theorem State.setStatus_fault : (s.setStatus st).fault = s.fault := rfl
@[simp] theorem State.setStatus_out : (s.setStatus st).out = s.out := rfl
@[simp] theorem State.setStatus_reg : (s.setStatus st).reg i = s.reg i := rfl
@[simp] theorem State.setStatus_nextPc : (s.setStatus st).nextPc = s.nextPc := rfl
@[simp] theorem State.setStatus_cell : (s.setStatus st).cell a = s.cell a := rfl

/-! `setPc` -/

@[simp] theorem State.setPc_x : (s.setPc t).x = s.x := rfl
@[simp] theorem State.setPc_pc : (s.setPc t).pc = t := rfl
@[simp] theorem State.setPc_ir : (s.setPc t).ir = s.ir := rfl
@[simp] theorem State.setPc_mem : (s.setPc t).mem = s.mem := rfl
@[simp] theorem State.setPc_status : (s.setPc t).status = s.status := rfl
@[simp] theorem State.setPc_fault : (s.setPc t).fault = s.fault := rfl
@[simp] theorem State.setPc_out : (s.setPc t).out = s.out := rfl
@[simp] theorem State.setPc_reg : (s.setPc t).reg i = s.reg i := rfl
@[simp] theorem State.setPc_cell : (s.setPc t).cell a = s.cell a := rfl

end Sys2Proof.Machine
end

