-- ==== Sys2Proof/Laws/Memory.lean ====
section
/-! SUPPORT. The laws of memory (20_memory.md R50 to R52, R56): read after write, canonical form, and that equal contents
are equal lists. -/

namespace Sys2Proof.Machine

/-- A cell below the first listed address reads as an unlisted one. -/
theorem Memory.read_below (m : Memory) (lo a : Nat) (h : Memory.wfFrom lo m = true) (ha : a < lo) :
    Memory.read m a = Memory.unlisted := by
  induction m generalizing lo with
  | nil => rfl
  | cons e m ih =>
    obtain ⟨k, b⟩ := e
    simp only [Memory.wfFrom, Bool.and_eq_true, decide_eq_true_eq] at h
    have hk : k ≠ a := by omega
    simp only [Memory.read, hk, if_false]
    exact ih (k + 1) h.2 (by omega)

/-- Canonical form from an address is canonical form from any lower one. -/
theorem Memory.wfFrom_mono (m : Memory) (lo lo' : Nat) (h : Memory.wfFrom lo m = true) (hl : lo' ≤ lo) :
    Memory.wfFrom lo' m = true := by
  cases m with
  | nil => rfl
  | cons e m =>
    simp only [Memory.wfFrom, Bool.and_eq_true, decide_eq_true_eq] at h ⊢
    exact ⟨⟨⟨by omega, h.1.1.2⟩, h.1.2⟩, h.2⟩

/-- A write leaves every other cell alone, in any memory list (R52: "changes only the one cell addressed"). -/
theorem Memory.read_write_other (m : Memory) (a b : Nat) (v : Byte) (h : b ≠ a) :
    Memory.read (Memory.write m a v) b = Memory.read m b := by
  induction m with
  | nil =>
    simp only [Memory.write]
    split <;> simp [Memory.read, Ne.symm h]
  | cons e m ih =>
    obtain ⟨k, w⟩ := e
    simp only [Memory.write]
    split
    · split
      · rfl
      · simp [Memory.read, Ne.symm h]
    · split
      · next hak =>
        have hkb : k ≠ b := by omega
        split <;> simp [Memory.read, hkb, Ne.symm h]
      · simp only [Memory.read, ih]

/-- A read after a write to the same cell gives the byte written. -/
theorem Memory.read_write_same (m : Memory) (lo a : Nat) (v : Byte) (h : Memory.wfFrom lo m = true) :
    Memory.read (Memory.write m a v) a = v := by
  induction m generalizing lo with
  | nil =>
    simp only [Memory.write]
    split
    · next hv => simp [Memory.read, hv]
    · simp [Memory.read]
  | cons e m ih =>
    obtain ⟨k, w⟩ := e
    have h' := h
    simp only [Memory.wfFrom, Bool.and_eq_true, decide_eq_true_eq] at h
    simp only [Memory.write]
    split
    · next hak =>
      split
      · next hv =>
        rw [hv]
        have hka : k ≠ a := by omega
        simp only [Memory.read, hka, if_false]
        exact Memory.read_below m (k + 1) a h.2 (by omega)
      · simp [Memory.read]
    · split
      · next hak =>
        split
        · next hv =>
          rw [hv]
          exact Memory.read_below m (k + 1) a h.2 (by omega)
        · simp [Memory.read]
      · next hak =>
        have hka : k ≠ a := fun hk => hak hk.symm
        simp only [Memory.read, hka, if_false]
        exact ih (k + 1) h.2

/-- A write keeps the canonical form. -/
theorem Memory.wfFrom_write (m : Memory) (lo a : Nat) (v : Byte) (h : Memory.wfFrom lo m = true) (hl : lo ≤ a)
    (ha : a < 256) : Memory.wfFrom lo (Memory.write m a v) = true := by
  induction m generalizing lo with
  | nil =>
    simp only [Memory.write]
    split
    · rfl
    · next hv => simp [Memory.wfFrom, hl, ha, hv]
  | cons e m ih =>
    obtain ⟨k, w⟩ := e
    have h' := h
    simp only [Memory.wfFrom, Bool.and_eq_true, decide_eq_true_eq] at h
    obtain ⟨⟨⟨hlk, hk⟩, hw⟩, hm⟩ := h
    simp only [Memory.write]
    split
    · next hak =>
      split
      · exact h'
      · next hv =>
        simp only [Memory.wfFrom, Bool.and_eq_true, decide_eq_true_eq, bne_iff_ne, ne_eq]
        exact ⟨⟨⟨hl, ha⟩, hv⟩, ⟨⟨by omega, hk⟩, by simpa using hw⟩, hm⟩
    · split
      · next hak =>
        split
        · exact Memory.wfFrom_mono m (k + 1) lo hm (by omega)
        · next hv =>
          simp only [Memory.wfFrom, Bool.and_eq_true, decide_eq_true_eq, bne_iff_ne, ne_eq]
          exact ⟨⟨⟨hl, ha⟩, hv⟩, hak ▸ hm⟩
      · simp only [Memory.wfFrom, Bool.and_eq_true, decide_eq_true_eq]
        exact ⟨⟨⟨hlk, hk⟩, hw⟩, ih (k + 1) hm (by omega)⟩

/-- A write to an address of the machine keeps the canonical form of memory. -/
theorem Memory.wf_write (m : Memory) (a : Nat) (v : Byte) (h : m.wf = true) (ha : a < 256) :
    (Memory.write m a v).wf = true :=
  Memory.wfFrom_write m 0 a v h (Nat.zero_le a) ha

/-- Two memories in canonical form that read alike are the same list. -/
theorem Memory.ext_read (m n : Memory) (lo : Nat) (hm : Memory.wfFrom lo m = true) (hn : Memory.wfFrom lo n = true)
    (h : ∀ a, Memory.read m a = Memory.read n a) : m = n := by
  induction m generalizing n lo with
  | nil =>
    cases n with
    | nil => rfl
    | cons f n =>
      obtain ⟨k, b⟩ := f
      simp only [Memory.wfFrom, Bool.and_eq_true, bne_iff_ne, ne_eq] at hn
      have := h k
      simp only [Memory.read, if_true] at this
      exact absurd this.symm hn.1.2
  | cons e m ih =>
    obtain ⟨k, b⟩ := e
    cases n with
    | nil =>
      simp only [Memory.wfFrom, Bool.and_eq_true, bne_iff_ne, ne_eq] at hm
      have := h k
      simp only [Memory.read, if_true] at this
      exact absurd this hm.1.2
    | cons f n =>
      obtain ⟨j, d⟩ := f
      have hm0 := hm
      have hn0 := hn
      simp only [Memory.wfFrom, Bool.and_eq_true, decide_eq_true_eq, bne_iff_ne, ne_eq] at hm hn
      have hkj : k = j := by
        rcases Nat.lt_trichotomy k j with hlt | heq | hgt
        · have := h k
          simp only [Memory.read, if_true] at this
          rw [if_neg (by omega), Memory.read_below n (j + 1) k hn.2 (by omega)] at this
          exact absurd this hm.1.2
        · exact heq
        · have := h j
          simp only [Memory.read, if_true] at this
          rw [if_neg (by omega), Memory.read_below m (k + 1) j hm.2 (by omega)] at this
          exact absurd this.symm hn.1.2
      subst hkj
      have hbd : b = d := by
        have := h k
        simpa [Memory.read] using this
      subst hbd
      have := ih n (k + 1) hm.2 hn.2 (fun a => by
        by_cases ha : k = a
        · rw [Memory.read_below m (k + 1) a hm.2 (by omega), Memory.read_below n (k + 1) a hn.2 (by omega)]
        · have := h a
          simpa [Memory.read, ha] using this)
      rw [this]

/-! The same laws for the cells of a state. -/

theorem State.cell_setCell_other (s : State) (a b : Int) (v : Byte) (ha : 0 ≤ a) (hb : 0 ≤ b) (h : b ≠ a) :
    (s.setCell a v).cell b = s.cell b :=
  Memory.read_write_other s.mem a.toNat b.toNat v (by omega)

theorem State.cell_setCell_same (s : State) (a : Int) (v : Byte) (h : s.mem.wf = true) :
    (s.setCell a v).cell a = v :=
  Memory.read_write_same s.mem 0 a.toNat v h

theorem State.setCell_wf (s : State) (a : Int) (v : Byte) (h : s.mem.wf = true) (ha : validAddress a) :
    (s.setCell a v).mem.wf = true :=
  Memory.wf_write s.mem a.toNat v h (by have := ha.1; have := ha.2; omega)

/-- Placing bytes inside memory keeps the canonical form. -/
theorem State.place_wf (bs : List Byte) (s : State) (a : Int) (h : s.mem.wf = true) (ha : 0 ≤ a)
    (hn : a + (bs.length : Int) ≤ 256) : (s.place a bs).mem.wf = true := by
  induction bs generalizing s a with
  | nil => exact h
  | cons b bs ih =>
    simp only [List.length_cons, Nat.cast_add, Nat.cast_one] at hn
    exact ih _ _ (State.setCell_wf s a b h ⟨ha, by omega⟩) (by omega) (by omega)

/-- Placing bytes changes nothing but memory. -/
theorem State.place_eq (bs : List Byte) (s : State) (a : Int) :
    s.place a bs = { s with mem := (s.place a bs).mem } := by
  induction bs generalizing s a with
  | nil => rfl
  | cons b bs ih =>
    simp only [State.place]
    rw [ih (s.setCell a b) (a + 1)]
    rfl

/-- Placing bytes leaves every cell outside them alone. -/
theorem State.place_read_outside (bs : List Byte) (s : State) (a : Int) (b : Nat) (ha : 0 ≤ a)
    (hb : (b : Int) < a ∨ a + (bs.length : Int) ≤ (b : Int)) : (s.place a bs).mem.read b = s.mem.read b := by
  induction bs generalizing s a with
  | nil => rfl
  | cons v bs ih =>
    simp only [List.length_cons, Nat.cast_add, Nat.cast_one] at hb
    simp only [State.place]
    rw [ih (s.setCell a v) (a + 1) (by omega) (by omega)]
    exact Memory.read_write_other s.mem a.toNat b v (by omega)

/-- Each placed byte stands in its cell (R204: "at consecutive addresses"). -/
theorem State.place_read_inside (bs : List Byte) (s : State) (a : Int) (i : Nat) (h : s.mem.wf = true) (ha : 0 ≤ a)
    (hn : a + (bs.length : Int) ≤ 256) (hi : i < bs.length) :
    some ((s.place a bs).mem.read (a.toNat + i)) = bs[i]? := by
  induction bs generalizing s a i with
  | nil => simp at hi
  | cons v bs ih =>
    simp only [List.length_cons, Nat.cast_add, Nat.cast_one] at hn hi
    have hwf : (s.setCell a v).mem.wf = true := State.setCell_wf s a v h ⟨ha, by omega⟩
    simp only [State.place]
    cases i with
    | zero =>
      rw [State.place_read_outside bs (s.setCell a v) (a + 1) (a.toNat + 0) (by omega) (by omega)]
      simpa using Memory.read_write_same s.mem 0 a.toNat v h
    | succ i =>
      have := ih (s.setCell a v) (a + 1) i hwf (by omega) (by omega) (by omega)
      rw [show a.toNat + (i + 1) = (a + 1).toNat + i by omega]
      simpa using this

/-! Everything the two access primitives can answer (R51, R52). -/

theorem memRead_of_valid (s : State) (a : Int) (h : validAddress a) : memRead s a = .ok (s.cell a) :=
  if_pos h

theorem memRead_of_invalid (s : State) (a : Int) (h : ¬ validAddress a) : memRead s a = .error (.outOfBounds a) :=
  if_neg h

theorem memRead_cases (s : State) (a : Int) :
    (validAddress a ∧ memRead s a = .ok (s.cell a)) ∨ (¬ validAddress a ∧ memRead s a = .error (.outOfBounds a)) := by
  by_cases h : validAddress a
  · exact .inl ⟨h, memRead_of_valid s a h⟩
  · exact .inr ⟨h, memRead_of_invalid s a h⟩

theorem memWrite_cases (s : State) (a v : Int) :
    (validAddress a ∧ 0 ≤ v ∧ v ≤ 255 ∧ memWrite s a v = .ok (s.setCell a (BitVec.ofNat 8 v.toNat))) ∨
      (validAddress a ∧ ¬ (0 ≤ v ∧ v ≤ 255) ∧ memWrite s a v = .error (.valueOutOfRange v)) ∨
      (¬ validAddress a ∧ memWrite s a v = .error (.outOfBounds a)) := by
  by_cases h : validAddress a
  · by_cases hv : 0 ≤ v ∧ v ≤ 255
    · exact .inl ⟨h, hv.1, hv.2, by simp only [memWrite, if_pos h, if_pos hv]⟩
    · exact .inr (.inl ⟨h, hv, by simp only [memWrite, if_pos h, if_neg hv]⟩)
  · exact .inr (.inr ⟨h, by simp only [memWrite, if_neg h]⟩)

/-- Memory after reset is in canonical form (R37). -/
theorem State.reset_mem_wf : State.reset.mem.wf = true := rfl

end Sys2Proof.Machine
end

