-- ==== Sys2Proof/Laws/Registers.lean ====
section
/-! SUPPORT. The laws of the register file (10_state.md R22 to R24). -/

namespace Sys2Proof.Machine

@[simp] theorem Regs.get_set_same (x : Regs) (i : Reg) (v : Int) : (x.set i v).get i = v := by
  cases i <;> rfl

theorem Regs.get_set_other (x : Regs) (i j : Reg) (v : Int) (h : j ≠ i) : (x.set i v).get j = x.get j := by
  cases i <;> cases j <;> first | rfl | exact absurd rfl h

theorem Regs.get_set (x : Regs) (i j : Reg) (v : Int) : (x.set i v).get j = if j = i then v else x.get j := by
  split
  · next h => rw [h, Regs.get_set_same]
  · next h => exact Regs.get_set_other x i j v h

/-- Two register files that hold the same integers are equal. -/
theorem Regs.ext_get (x y : Regs) (h : ∀ i, x.get i = y.get i) : x = y := by
  have h0 := h .r0
  have h1 := h .r1
  have h2 := h .r2
  have h3 := h .r3
  have h4 := h .r4
  have h5 := h .r5
  have h6 := h .r6
  have h7 := h .r7
  cases x
  cases y
  simp only [Regs.get] at *
  simp only [*]

theorem State.reg_setReg (s : State) (i j : Reg) (v : Int) :
    (s.setReg i v).reg j = if j = i then v else s.reg j :=
  Regs.get_set s.x i j v

@[simp] theorem State.reg_setReg_same (s : State) (i : Reg) (v : Int) : (s.setReg i v).reg i = v :=
  Regs.get_set_same s.x i v

/-- An index selects a register exactly when it is 0 to 7 (R23). -/
theorem Reg.ofIndex_eq_none_iff (n : Nat) : Reg.ofIndex n = none ↔ 8 ≤ n := by
  match n with
  | 0 | 1 | 2 | 3 | 4 | 5 | 6 | 7 => simp [Reg.ofIndex]
  | n + 8 => simp [Reg.ofIndex]

/-- Under the default parameters every integer fits a register (R24). -/
@[simp] theorem inRange_default (v : Int) : inRange Config.default v = true := rfl

theorem readReg_of_index (s : State) (i : Byte) (r : Reg) (h : Reg.ofIndex i.toNat = some r) :
    readReg s i = .ok (s.reg r) := by
  simp only [readReg, h]

theorem readReg_of_invalid (s : State) (i : Byte) (h : Reg.ofIndex i.toNat = none) :
    readReg s i = .error (.invalidRegister i) := by
  simp only [readReg, h]

/-- Everything a register read can answer (R23). -/
theorem readReg_cases (s : State) (i : Byte) :
    (∃ r, Reg.ofIndex i.toNat = some r ∧ readReg s i = .ok (s.reg r)) ∨
      (Reg.ofIndex i.toNat = none ∧ readReg s i = .error (.invalidRegister i)) := by
  cases h : Reg.ofIndex i.toNat with
  | none => exact .inr ⟨rfl, readReg_of_invalid s i h⟩
  | some r => exact .inl ⟨r, rfl, readReg_of_index s i r h⟩

/-- Everything a slot write can answer (R23). -/
theorem writeSlot_cases (c : Config) (s : State) (r : Reg) (v : Int) :
    (inRange c v = true ∧ writeSlot c s r v = .ok (s.setReg r v)) ∨
      (inRange c v = false ∧ writeSlot c s r v = .error (.valueOutOfRange v)) := by
  cases h : inRange c v with
  | false => exact .inr ⟨rfl, by simp [writeSlot, h]⟩
  | true => exact .inl ⟨rfl, by simp [writeSlot, h]⟩

@[simp] theorem writeSlot_default (s : State) (r : Reg) (v : Int) :
    writeSlot Config.default s r v = .ok (s.setReg r v) := rfl

theorem writeReg_of_index (c : Config) (s : State) (i : Byte) (v : Int) (r : Reg)
    (h : Reg.ofIndex i.toNat = some r) : writeReg c s i v = writeSlot c s r v := by
  simp only [writeReg, h]

theorem writeReg_of_invalid (c : Config) (s : State) (i : Byte) (v : Int) (h : Reg.ofIndex i.toNat = none) :
    writeReg c s i v = .error (.invalidRegister i) := by
  simp only [writeReg, h]

/-- Everything a register write can answer (R23): the index is checked before the value. -/
theorem writeReg_cases (c : Config) (s : State) (i : Byte) (v : Int) :
    (∃ r, Reg.ofIndex i.toNat = some r ∧ inRange c v = true ∧ writeReg c s i v = .ok (s.setReg r v)) ∨
      (∃ r, Reg.ofIndex i.toNat = some r ∧ inRange c v = false ∧ writeReg c s i v = .error (.valueOutOfRange v)) ∨
      (Reg.ofIndex i.toNat = none ∧ writeReg c s i v = .error (.invalidRegister i)) := by
  cases h : Reg.ofIndex i.toNat with
  | none => exact .inr (.inr ⟨rfl, writeReg_of_invalid c s i v h⟩)
  | some r =>
    rw [writeReg_of_index c s i v r h]
    rcases writeSlot_cases c s r v with ⟨hr, hw⟩ | ⟨hr, hw⟩
    · exact .inl ⟨r, rfl, hr, hw⟩
    · exact .inr (.inl ⟨r, rfl, hr, hw⟩)

end Sys2Proof.Machine
end

