-- ==== Sys2Proof/Laws/Ops.lean ====
section
/-! SUPPORT. Fault entry, the sequence of numbered steps, the operand readers and the shared ALU sequence: what each can
do, said once. -/

namespace Sys2Proof.Machine

@[simp] theorem State.attempt_ok {α : Type} (s : State) (a : α) (k : α → Result) : s.attempt (.ok a) k = k a := rfl

@[simp] theorem State.attempt_error {α : Type} (s : State) (e : FaultCause) (k : α → Result) :
    s.attempt (.error e) k = s.raise e := rfl

/-- Fault entry always answers a next state, and this one (R180). -/
theorem State.raise_eq_next_iff (s t : State) (e : FaultCause) :
    s.raise e = .next t ↔
      t = { s with fault := some { cause := e, opcode := s.ir, pc0 := s.pc }, status := .faulted } := by
  simp only [State.raise, Host.Outcome.next.injEq]
  exact eq_comm

/-- Everything a numbered step can do: it raises, or the next steps go on with its answer. -/
theorem State.attempt_eq_next {α : Type} {s t : State} {r : Except FaultCause α} {k : α → Result}
    (h : s.attempt r k = .next t) :
    (∃ e, r = .error e ∧ s.raise e = .next t) ∨ (∃ a, r = .ok a ∧ k a = .next t) := by
  cases r with
  | error e => exact .inl ⟨e, rfl, h⟩
  | ok a => exact .inr ⟨a, rfl, h⟩

/-- A numbered step always goes on to a next state when the steps after it do. -/
theorem State.attempt_answers {α : Type} (s : State) (r : Except FaultCause α) (k : α → Result)
    (h : ∀ a, ∃ t, k a = .next t) : ∃ t, s.attempt r k = .next t := by
  cases r with
  | error e => exact ⟨_, rfl⟩
  | ok a => exact h a

/-- The generic advance always answers a next state, and this one (R104). -/
theorem advance_eq_next_iff (s t : State) : advance s = .next t ↔ t = s.setPc s.nextPc := by
  simp only [advance, Host.Outcome.next.injEq]
  exact eq_comm

@[simp] theorem fetchedOperand_byte (b : Byte) (k : Nat) (s : State) : fetchedOperand (.byte b) k s = .ok b := rfl

@[simp] theorem fetchedOperand_beyond (k : Nat) (s : State) :
    fetchedOperand .beyond k s = .error (.outOfBounds (s.pc + (k : Int))) := rfl

/-- The operand that stands at an operand address is what MemRead reads there (R83). -/
theorem fetchedOperand_operandAt (s s' : State) (k : Nat) (hp : s'.pc = s.pc) (hm : s'.mem = s.mem) :
    fetchedOperand (s.operandAt k) k s' = memOperand k s' := by
  simp only [State.operandAt, memOperand, memRead, hp]
  split
  · simp [State.cell, hm]
  · simp [hp]

/-- CALL's operand when the stack write missed it. -/
theorem callOperand_missed (o : Operand) (s : State) (h : s.reg .r7 ≠ s.pc + 1) :
    callOperand o s = fetchedOperand o 1 s :=
  if_neg h

/-- CALL's operand when the stack write landed on it: the byte that stands there now (R160, R83). -/
theorem callOperand_hit (o : Operand) (s : State) (h : s.reg .r7 = s.pc + 1) :
    callOperand o s = memOperand 1 s :=
  if_pos h

/-- Everything the divisor check can answer (R130 step 5). -/
theorem checkDivisor_cases (op : AluOp) (rb : Byte) (b : Int) :
    (op.divides = true ∧ b = 0 ∧ checkDivisor op rb b = .error (.divisionByZero rb)) ∨
      ((op.divides = true → b ≠ 0) ∧ checkDivisor op rb b = .ok ()) := by
  by_cases h : op.divides = true ∧ b = 0
  · exact .inl ⟨h.1, h.2, if_pos h⟩
  · exact .inr ⟨fun hd hb => h ⟨hd, hb⟩, if_neg h⟩

/-- Everything the shared ALU sequence can do (R130): it raises in the state before it, or it writes the exact result
into the first operand's register and advances. -/
theorem aluSteps_eq_next {c : Config} {op : AluOp} {op1 op2 : OperandReader} {s t : State}
    (h : aluSteps c op op1 op2 s = .next t) :
    (∃ e, s.raise e = .next t) ∨
      (∃ ra rb A B, op1 s = .ok ra ∧ op2 s = .ok rb ∧ Reg.ofIndex ra.toNat = some A ∧ Reg.ofIndex rb.toNat = some B ∧
        (op.divides = true → s.reg B ≠ 0) ∧ inRange c (op.apply c (s.reg A) (s.reg B)) = true ∧
        t = (s.setReg A (op.apply c (s.reg A) (s.reg B))).setPc s.nextPc) := by
  unfold aluSteps at h
  obtain ⟨e, _, he⟩ | ⟨ra, hra, h⟩ := State.attempt_eq_next h
  · exact .inl ⟨e, he⟩
  obtain ⟨e, _, he⟩ | ⟨rb, hrb, h⟩ := State.attempt_eq_next h
  · exact .inl ⟨e, he⟩
  obtain ⟨e, _, he⟩ | ⟨a, ha, h⟩ := State.attempt_eq_next h
  · exact .inl ⟨e, he⟩
  obtain ⟨e, _, he⟩ | ⟨b, hb, h⟩ := State.attempt_eq_next h
  · exact .inl ⟨e, he⟩
  obtain ⟨e, _, he⟩ | ⟨u, hd, h⟩ := State.attempt_eq_next h
  · exact .inl ⟨e, he⟩
  obtain ⟨e, _, he⟩ | ⟨s', hw, h⟩ := State.attempt_eq_next h
  · exact .inl ⟨e, he⟩
  obtain ⟨A, hA, hrA⟩ | ⟨_, hrA⟩ := readReg_cases s ra
  swap
  · rw [hrA] at ha; cases ha
  obtain ⟨B, hB, hrB⟩ | ⟨_, hrB⟩ := readReg_cases s rb
  swap
  · rw [hrB] at hb; cases hb
  rw [hrA] at ha; cases ha
  rw [hrB] at hb; cases hb
  obtain ⟨_, _, hc⟩ | ⟨hdiv, _⟩ := checkDivisor_cases op rb (s.reg B)
  · rw [hc] at hd; cases hd
  rw [writeReg_of_index _ _ _ _ A hA] at hw
  obtain ⟨hr, hs⟩ | ⟨_, hs⟩ := writeSlot_cases c s A (op.apply c (s.reg A) (s.reg B))
  swap
  · rw [hs] at hw; cases hw
  rw [hs] at hw; cases hw
  rw [advance_eq_next_iff] at h
  exact .inr ⟨ra, rb, A, B, hra, hrb, hA, hB, hdiv, hr, h⟩

end Sys2Proof.Machine
end

