-- ==== Sys2Proof/Laws/Meanings.lean ====
section
/-! SUPPORT. What the numbered steps of each instruction can do, said once for each instruction, for any parameters and
any way to obtain the operand bytes; and which instruction the cycle decodes. -/

namespace Sys2Proof.Machine

/-- A register read that succeeded read the register its index names (R23). -/
theorem readReg_eq_ok {s : State} {i : Byte} {v : Int} (h : readReg s i = .ok v) :
    ∃ r, Reg.ofIndex i.toNat = some r ∧ v = s.reg r := by
  obtain ⟨r, hi, hr⟩ | ⟨_, hr⟩ := readReg_cases s i
  · rw [hr] at h
    cases h
    exact ⟨r, hi, rfl⟩
  · rw [hr] at h
    cases h

/-- A slot write that succeeded wrote that slot, inside the range (R23). -/
theorem writeSlot_eq_ok {c : Config} {s t : State} {r : Reg} {v : Int} (h : writeSlot c s r v = .ok t) :
    inRange c v = true ∧ t = s.setReg r v := by
  obtain ⟨hi, hr⟩ | ⟨_, hr⟩ := writeSlot_cases c s r v
  · rw [hr] at h
    cases h
    exact ⟨hi, rfl⟩
  · rw [hr] at h
    cases h

/-- A register write that succeeded wrote the register its index names, inside the range (R23). -/
theorem writeReg_eq_ok {c : Config} {s t : State} {i : Byte} {v : Int} (h : writeReg c s i v = .ok t) :
    ∃ r, Reg.ofIndex i.toNat = some r ∧ inRange c v = true ∧ t = s.setReg r v := by
  obtain ⟨r, hi, hv, hr⟩ | ⟨_, _, _, hr⟩ | ⟨_, hr⟩ := writeReg_cases c s i v
  · rw [hr] at h
    cases h
    exact ⟨r, hi, hv, rfl⟩
  · rw [hr] at h
    cases h
  · rw [hr] at h
    cases h

/-- A memory read that succeeded read a cell (R51). -/
theorem memRead_eq_ok {s : State} {a : Int} {b : Byte} (h : memRead s a = .ok b) :
    validAddress a ∧ b = s.cell a := by
  obtain ⟨hi, hr⟩ | ⟨_, hr⟩ := memRead_cases s a
  · rw [hr] at h
    cases h
    exact ⟨hi, rfl⟩
  · rw [hr] at h
    cases h

/-- A memory write that succeeded wrote a byte to a cell (R52). -/
theorem memWrite_eq_ok {s t : State} {a v : Int} (h : memWrite s a v = .ok t) :
    validAddress a ∧ 0 ≤ v ∧ v ≤ 255 ∧ t = s.setCell a (BitVec.ofNat 8 v.toNat) := by
  obtain ⟨hi, h0, h1, hr⟩ | ⟨_, _, hr⟩ | ⟨_, hr⟩ := memWrite_cases s a v
  · rw [hr] at h
    cases h
    exact ⟨hi, h0, h1, rfl⟩
  · rw [hr] at h
    cases h
  · rw [hr] at h
    cases h

/-- Everything LDI can do (R120): it raises with nothing written, or writes the immediate and advances. -/
theorem ldiSteps_eq_next {c : Config} {op1 op2 : OperandReader} {s t : State} (h : ldiSteps c op1 op2 s = .next t) :
    (∃ e, s.raise e = .next t) ∨
      (∃ r imm R, op1 s = .ok r ∧ op2 s = .ok imm ∧ Reg.ofIndex r.toNat = some R ∧
        inRange c (imm.toNat : Int) = true ∧ t = (s.setReg R (imm.toNat : Int)).setPc s.nextPc) := by
  unfold ldiSteps at h
  obtain ⟨e, _, he⟩ | ⟨r, hr, h⟩ := State.attempt_eq_next h
  · exact .inl ⟨e, he⟩
  obtain ⟨e, _, he⟩ | ⟨imm, himm, h⟩ := State.attempt_eq_next h
  · exact .inl ⟨e, he⟩
  obtain ⟨e, _, he⟩ | ⟨s', hw, h⟩ := State.attempt_eq_next h
  · exact .inl ⟨e, he⟩
  obtain ⟨R, hR, hv, rfl⟩ := writeReg_eq_ok hw
  rw [advance_eq_next_iff] at h
  exact .inr ⟨r, imm, R, hr, himm, hR, hv, h⟩

/-- Everything PRN can do (R121): it raises with nothing emitted, or emits the register and advances. -/
theorem prnSteps_eq_next {op1 : OperandReader} {s t : State} (h : prnSteps op1 s = .next t) :
    (∃ e, s.raise e = .next t) ∨
      (∃ r R, op1 s = .ok r ∧ Reg.ofIndex r.toNat = some R ∧ t = (s.emit (s.reg R)).setPc s.nextPc) := by
  unfold prnSteps at h
  obtain ⟨e, _, he⟩ | ⟨r, hr, h⟩ := State.attempt_eq_next h
  · exact .inl ⟨e, he⟩
  obtain ⟨e, _, he⟩ | ⟨v, hv, h⟩ := State.attempt_eq_next h
  · exact .inl ⟨e, he⟩
  obtain ⟨R, hR, rfl⟩ := readReg_eq_ok hv
  rw [advance_eq_next_iff] at h
  exact .inr ⟨r, R, hr, hR, h⟩

/-- Everything PUSH can do (R150): it raises with nothing written, or raises with the stack pointer decremented, or stores
a byte at the decremented pointer and advances. -/
theorem pushSteps_eq_next {c : Config} {op1 : OperandReader} {s t : State} (h : pushSteps c op1 s = .next t) :
    (inRange c s.pushSlot = false ∧ s.raise (.valueOutOfRange s.pushSlot) = .next t) ∨
      (inRange c s.pushSlot = true ∧ ∃ e, (s.setReg .r7 s.pushSlot).raise e = .next t) ∨
      (∃ r R, inRange c s.pushSlot = true ∧ op1 (s.setReg .r7 s.pushSlot) = .ok r ∧ Reg.ofIndex r.toNat = some R ∧
        validAddress s.pushSlot ∧ 0 ≤ (s.setReg .r7 s.pushSlot).reg R ∧ (s.setReg .r7 s.pushSlot).reg R ≤ 255 ∧
        t = ((s.setReg .r7 s.pushSlot).setCell s.pushSlot
          (BitVec.ofNat 8 ((s.setReg .r7 s.pushSlot).reg R).toNat)).setPc s.nextPc) := by
  unfold pushSteps at h
  obtain ⟨hr, hw⟩ | ⟨hr, hw⟩ := writeSlot_cases c s .r7 s.pushSlot
  swap
  · rw [hw] at h
    exact .inl ⟨hr, h⟩
  rw [hw, State.attempt_ok] at h
  obtain ⟨e, _, he⟩ | ⟨r, hop, h⟩ := State.attempt_eq_next h
  · exact .inr (.inl ⟨hr, e, he⟩)
  obtain ⟨e, _, he⟩ | ⟨v, hv, h⟩ := State.attempt_eq_next h
  · exact .inr (.inl ⟨hr, e, he⟩)
  obtain ⟨e, _, he⟩ | ⟨s2, hs2, h⟩ := State.attempt_eq_next h
  · exact .inr (.inl ⟨hr, e, he⟩)
  obtain ⟨R, hR, rfl⟩ := readReg_eq_ok hv
  rw [State.reg_setReg_same] at hs2
  obtain ⟨ha, h0, h1, rfl⟩ := memWrite_eq_ok hs2
  rw [advance_eq_next_iff] at h
  exact .inr (.inr ⟨r, R, hr, hop, hR, ha, h0, h1, h⟩)

/-- Everything POP can do (R151): it raises with nothing written, or loads the byte, increments the stack pointer and
advances, or raises with the byte loaded when the incremented pointer fits no register. -/
theorem popSteps_eq_next {c : Config} {op1 : OperandReader} {s t : State} (h : popSteps c op1 s = .next t) :
    (∃ e, s.raise e = .next t) ∨
      (∃ r R, validAddress s.popSlot ∧ op1 s = .ok r ∧ Reg.ofIndex r.toNat = some R ∧
        inRange c ((s.cell s.popSlot).toNat : Int) = true ∧
        let s1 := s.setReg R ((s.cell s.popSlot).toNat : Int)
        (inRange c (s1.reg .r7 + 1) = true ∧ t = (s1.setReg .r7 (s1.reg .r7 + 1)).setPc s.nextPc) ∨
          (inRange c (s1.reg .r7 + 1) = false ∧ s1.raise (.valueOutOfRange (s1.reg .r7 + 1)) = .next t)) := by
  unfold popSteps at h
  obtain ⟨e, _, he⟩ | ⟨v, hv, h⟩ := State.attempt_eq_next h
  · exact .inl ⟨e, he⟩
  obtain ⟨e, _, he⟩ | ⟨r, hop, h⟩ := State.attempt_eq_next h
  · exact .inl ⟨e, he⟩
  obtain ⟨e, _, he⟩ | ⟨s1, hs1, h⟩ := State.attempt_eq_next h
  · exact .inl ⟨e, he⟩
  obtain ⟨ha, rfl⟩ := memRead_eq_ok hv
  obtain ⟨R, hR, hfit, rfl⟩ := writeReg_eq_ok hs1
  refine .inr ⟨r, R, ha, hop, hR, hfit, ?_⟩
  obtain ⟨hr, hw⟩ | ⟨hr, hw⟩ :=
    writeSlot_cases c (s.setReg R ((s.cell s.popSlot).toNat : Int)) .r7
      ((s.setReg R ((s.cell s.popSlot).toNat : Int)).reg .r7 + 1)
  · rw [hw, State.attempt_ok, advance_eq_next_iff] at h
    exact .inl ⟨hr, h⟩
  · rw [hw] at h
    exact .inr ⟨hr, h⟩

/-- Everything CALL can do (R160): it raises with nothing written, or with the stack pointer decremented, or with the
return address stored too, or it goes to the register's value. -/
theorem callSteps_eq_next {c : Config} {op1 : OperandReader} {s t : State} (h : callSteps c op1 s = .next t) :
    (inRange c s.pushSlot = false ∧ s.raise (.valueOutOfRange s.pushSlot) = .next t) ∨
      (inRange c s.pushSlot = true ∧ ∃ e, (s.setReg .r7 s.pushSlot).raise e = .next t) ∨
      (inRange c s.pushSlot = true ∧ validAddress s.pushSlot ∧ 0 ≤ s.nextPc ∧ s.nextPc ≤ 255 ∧
        let s2 := (s.setReg .r7 s.pushSlot).setCell s.pushSlot (BitVec.ofNat 8 s.nextPc.toNat)
        (∃ e, s2.raise e = .next t) ∨
          (∃ r R, op1 s2 = .ok r ∧ Reg.ofIndex r.toNat = some R ∧ t = s2.setPc (s2.reg R))) := by
  unfold callSteps at h
  obtain ⟨hr, hw⟩ | ⟨hr, hw⟩ := writeSlot_cases c s .r7 s.pushSlot
  swap
  · rw [hw] at h
    exact .inl ⟨hr, h⟩
  rw [hw, State.attempt_ok, State.reg_setReg_same, State.setReg_nextPc] at h
  obtain ⟨e, _, he⟩ | ⟨s2, hs2, h⟩ := State.attempt_eq_next h
  · exact .inr (.inl ⟨hr, e, he⟩)
  obtain ⟨ha, h0, h1, rfl⟩ := memWrite_eq_ok hs2
  refine .inr (.inr ⟨hr, ha, h0, h1, ?_⟩)
  obtain ⟨e, _, he⟩ | ⟨r, hop, h⟩ := State.attempt_eq_next h
  · exact .inl ⟨e, he⟩
  obtain ⟨e, _, he⟩ | ⟨v, hv, h⟩ := State.attempt_eq_next h
  · exact .inl ⟨e, he⟩
  obtain ⟨R, hR, rfl⟩ := readReg_eq_ok hv
  cases h
  exact .inr ⟨r, R, hop, hR, rfl⟩

/-- Everything RET can do (R161): it raises with nothing written, or goes to the byte on top of the stack and increments
the stack pointer. -/
theorem retSteps_eq_next {c : Config} {s t : State} (h : retSteps c s = .next t) :
    (∃ e, s.raise e = .next t) ∨
      (validAddress s.popSlot ∧ inRange c (s.reg .r7 + 1) = true ∧
        t = (s.setReg .r7 (s.reg .r7 + 1)).setPc ((s.cell s.popSlot).toNat : Int)) := by
  unfold retSteps at h
  obtain ⟨e, _, he⟩ | ⟨v, hv, h⟩ := State.attempt_eq_next h
  · exact .inl ⟨e, he⟩
  obtain ⟨e, _, he⟩ | ⟨s1, hs1, h⟩ := State.attempt_eq_next h
  · exact .inl ⟨e, he⟩
  obtain ⟨ha, rfl⟩ := memRead_eq_ok hv
  obtain ⟨hr, rfl⟩ := writeSlot_eq_ok hs1
  cases h
  exact .inr ⟨ha, hr, rfl⟩

/-! ### The instruction the cycle decodes -/

/-- The bytes the decoder sees are those of the two operand addresses. -/
theorem operandBytes_eq (s : State) : operandBytes s = (s.operandAt 1).bytes ++ (s.operandAt 2).bytes := by
  simp [operandBytes]

/-- When the first operand address is past the end of memory, so is the second (R80). -/
theorem operandAt_two_beyond (s : State) (hv : validAddress s.pc) (h : s.operandAt 1 = .beyond) :
    s.operandAt 2 = .beyond := by
  unfold State.operandAt at h ⊢
  split at h
  · cases h
  · next hn =>
    rw [if_neg]
    simp only [validAddress] at hv hn ⊢
    push_cast at hn ⊢
    omega

/-- The operands of the instruction decoded at the pc are those that stand at pc0 + 1 and pc0 + 2 (R83). -/
theorem decoded_operands (s : State) (h : Handler) (hv : validAddress s.pc) :
    (h.withOperands (operandBytes s)).1.handler = h ∧
      (h.withOperands (operandBytes s)).1.operands = [s.operandAt 1, s.operandAt 2].take h.arity := by
  have h1 : takeOperand (operandBytes s) = (s.operandAt 1, (s.operandAt 2).bytes) := by
    rw [operandBytes_eq]
    cases h1 : s.operandAt 1 with
    | byte b => rfl
    | beyond => rw [operandAt_two_beyond s hv h1]; rfl
  have h2 : (takeOperand (s.operandAt 2).bytes).1 = s.operandAt 2 := by
    cases s.operandAt 2 <;> rfl
  cases h <;>
    simp [Handler.withOperands, takeTwo, takeOne, h1, h2, Instr.handler, Instr.operands, Handler.arity]

end Sys2Proof.Machine
end

