-- ==== Sys2Proof/Laws/PerInstr.lean ====
section
/-! SUPPORT. Statements made for every instruction, one lemma for each constructor. -/

/-! An instruction that lies wholly inside memory has as many bytes as its format says: one more than its operand count
(30_encoding.md R80). -/

namespace Sys2Proof.Laws.EncodedLength

/-- A complete instruction is encoded in `arity + 1` bytes, whatever the opcode values. -/
def Statement (i : Instr) : Prop :=
  ∀ c : Config, i.complete = true → (encodeWith c i).length = i.handler.arity + 1

/-- The bytes of one operand inside memory. -/
theorem one_operand (a : Operand) (h : (a != .beyond) = true) : a.bytes.length = 1 := by
  cases a with
  | byte b => rfl
  | beyond => cases h

/-- Two operands inside memory are two bytes. -/
theorem two_operands (c : Config) (i : Instr) (a b : Operand) (ho : i.operands = [a, b])
    (h : i.complete = true) : (encodeWith c i).length = 3 := by
  simp only [Instr.complete, ho, List.all_cons, List.all_nil, Bool.and_true, Bool.and_eq_true] at h
  simp [encodeWith, ho, one_operand a h.1, one_operand b h.2]

/-- One operand inside memory is one byte. -/
theorem single_operand (c : Config) (i : Instr) (a : Operand) (ho : i.operands = [a])
    (h : i.complete = true) : (encodeWith c i).length = 2 := by
  simp only [Instr.complete, ho, List.all_cons, List.all_nil, Bool.and_true] at h
  simp [encodeWith, ho, one_operand a h]

theorem ldi (r imm : Operand) : Statement (.ldi r imm) := fun c h => two_operands c _ r imm rfl h
theorem prn (r : Operand) : Statement (.prn r) := fun c h => single_operand c _ r rfl h
theorem hlt : Statement .hlt := fun _ _ => rfl
theorem add (ra rb : Operand) : Statement (.add ra rb) := fun c h => two_operands c _ ra rb rfl h
theorem sub (ra rb : Operand) : Statement (.sub ra rb) := fun c h => two_operands c _ ra rb rfl h
theorem mul (ra rb : Operand) : Statement (.mul ra rb) := fun c h => two_operands c _ ra rb rfl h
theorem div (ra rb : Operand) : Statement (.div ra rb) := fun c h => two_operands c _ ra rb rfl h
theorem mod (ra rb : Operand) : Statement (.mod ra rb) := fun c h => two_operands c _ ra rb rfl h
theorem push (r : Operand) : Statement (.push r) := fun c h => single_operand c _ r rfl h
theorem pop (r : Operand) : Statement (.pop r) := fun c h => single_operand c _ r rfl h
theorem call (r : Operand) : Statement (.call r) := fun c h => single_operand c _ r rfl h
theorem ret : Statement .ret := fun _ _ => rfl

end Sys2Proof.Laws.EncodedLength
end

