-- ==== Sys2Proof/Laws/Run.lean ====
section
/-! SUPPORT. The laws of runs (40_execution_cycle.md R105): a run is steps one after another, and what every step keeps
every run keeps. -/

namespace Sys2Proof.Machine

@[simp] theorem runsTo_zero (s t : State) : RunsTo 0 s t ↔ s = t := by
  constructor
  · intro h
    exact Host.Outcome.next.inj h
  · intro h
    exact congrArg Host.Outcome.next h

/-- A run of `k + 1` steps of any machine is a step and a run of `k` steps. -/
theorem core_run_succ (M : Host.Core) (k : Nat) (s t : M.State) :
    M.run (k + 1) s = .next t ↔ ∃ u, M.step s = .next u ∧ M.run k u = .next t := by
  simp only [Host.Core.run]
  cases h : M.step s <;> simp

/-- A run of `k + 1` steps is a step and a run of `k` steps. -/
theorem runsTo_succ (k : Nat) (s t : State) :
    RunsTo (k + 1) s t ↔ ∃ u, step s = .next u ∧ RunsTo k u t :=
  core_run_succ Sys2Proof.core k s t

/-- A run and one more step. -/
theorem runsTo_snoc (k : Nat) (s t u : State) (h : RunsTo k s t) (hs : step t = .next u) : RunsTo (k + 1) s u := by
  induction k generalizing s with
  | zero =>
    rw [runsTo_zero] at h
    subst h
    exact (runsTo_succ 0 s u).2 ⟨u, hs, (runsTo_zero u u).2 rfl⟩
  | succ k ih =>
    obtain ⟨s', hs', h'⟩ := (runsTo_succ k s t).1 h
    exact (runsTo_succ (k + 1) s u).2 ⟨s', hs', ih s' h'⟩

/-- What every step keeps, every run keeps. -/
theorem runsTo_keeps (P : State → Prop) (hstep : ∀ s t, P s → step s = .next t → P t) (k : Nat) (s t : State)
    (hs : P s) (h : RunsTo k s t) : P t := by
  induction k generalizing s with
  | zero => exact (runsTo_zero s t).1 h ▸ hs
  | succ k ih =>
    obtain ⟨u, hu, h'⟩ := (runsTo_succ k s t).1 h
    exact ih u (hstep s u hs hu) h'

/-- The fault entry of the claims is the machine's (R180). -/
theorem State.raise_eq (s : State) (e : FaultCause) : s.raise e = .next (s.faultedBy e) := rfl

end Sys2Proof.Machine
end

