-- ==== Sys2Proof/Tests/Slice0.lean ====
section
/-! SUPPORT. The model's own tests: the well-formedness smoke, decode words written out from spec/30_encoding.md, one-step
tests whose expected results are the vectors V-… of spec/95_test_vectors.md, and for each obligation with hypotheses a
witness that meets them. -/

namespace Sys2Proof.Tests

open Sys2Proof.Machine

/-! ### Helpers -/

/-- Some registers set, one after another. -/
def withRegs (s : State) : List (Reg × Int) → State
  | [] => s
  | (r, v) :: rest => withRegs (s.setReg r v) rest

/-- The launch state with `code` at `pc`, some registers set and some bytes placed. -/
def machine (pc : Int) (code : List Byte) (regs : List (Reg × Int)) (cells : List (Int × Byte)) : State :=
  withRegs ((cells.foldl (fun s e => s.setCell e.1 e.2) (State.reset.place pc code)).setPc pc) regs

/-- The outcome is a next state with a property. -/
def nextIs (r : Result) (p : State → Bool) : Bool :=
  match r with
  | .next t => p t
  | .fault _ => false
  | .refused _ => false

/-- The outcome is the Faulted state with this record, the pc where the record says. -/
def faultIs (r : Result) (e : FaultCause) (op : Byte) (pc : Int) (p : State → Bool) : Bool :=
  nextIs r fun t =>
    t.status == .faulted && t.fault == some { cause := e, opcode := op, pc0 := pc } && t.pc == pc && p t

/-- The core with an 8-bit register range. -/
def narrow : Config :=
  { Config.default with regMin := some 0, regMax := some 255 }

/-- The core that truncates. -/
def truncating : Config :=
  { Config.default with divRound := .truncate }

/-! ### Well-formedness: an operand byte cannot follow one that is past the end of memory (R80) -/

theorem test_wf_refuses_ldi : Instr.wf (.ldi .beyond (.byte 1#8)) = false := by decide
theorem test_wf_refuses_add : Instr.wf (.add .beyond (.byte 1#8)) = false := by decide
theorem test_wf_refuses_sub : Instr.wf (.sub .beyond (.byte 1#8)) = false := by decide
theorem test_wf_refuses_mul : Instr.wf (.mul .beyond (.byte 1#8)) = false := by decide
theorem test_wf_refuses_div : Instr.wf (.div .beyond (.byte 1#8)) = false := by decide
theorem test_wf_refuses_mod : Instr.wf (.mod .beyond (.byte 1#8)) = false := by decide
theorem test_wf_admits_cut_off : Instr.wf (.ldi (.byte 1#8) .beyond) = true := by decide
theorem test_complete_refuses_cut_off : Instr.complete (.prn .beyond) = false := by decide

/-! ### Decoding: words written bit by bit, bit 7 first, from the encodings of R80 and R85 -/

theorem test_decode_ldi : decode [0b10000010#8, 0b00000011#8, 0b11111111#8] =
    .ok (.ldi (.byte 3#8) (.byte 255#8), []) := by rfl
theorem test_decode_prn : decode [0b01000111#8, 0b00000111#8] = .ok (.prn (.byte 7#8), []) := by rfl
theorem test_decode_hlt : decode [0b00000001#8, 0b01000111#8] = .ok (.hlt, [0b01000111#8]) := by rfl
theorem test_decode_add : decode [0b10100000#8, 0b00000001#8, 0b00000010#8] =
    .ok (.add (.byte 1#8) (.byte 2#8), []) := by rfl
theorem test_decode_sub : decode [0b10100001#8, 0b00000001#8, 0b00000010#8] =
    .ok (.sub (.byte 1#8) (.byte 2#8), []) := by rfl
theorem test_decode_mul : decode [0b10100010#8, 0b00000001#8, 0b00000010#8] =
    .ok (.mul (.byte 1#8) (.byte 2#8), []) := by rfl
theorem test_decode_div : decode [0b10100011#8, 0b00000001#8, 0b00000010#8] =
    .ok (.div (.byte 1#8) (.byte 2#8), []) := by rfl
theorem test_decode_mod : decode [0b10100100#8, 0b00000001#8, 0b00000010#8] =
    .ok (.mod (.byte 1#8) (.byte 2#8), []) := by rfl
theorem test_decode_push : decode [0b01000101#8, 0b10000000#8] = .ok (.push (.byte 128#8), []) := by rfl
theorem test_decode_pop : decode [0b01000110#8, 0b00000100#8] = .ok (.pop (.byte 4#8), []) := by rfl
theorem test_decode_call : decode [0b01010000#8, 0b00000010#8] = .ok (.call (.byte 2#8), []) := by rfl
theorem test_decode_ret : decode [0b00010001#8] = .ok (.ret, []) := by rfl

/-- The neighbours of the opcode values are refused: V-DEC-1 to V-DEC-16. -/
theorem test_decode_refuses :
    ∀ b ∈ [0x00#8, 0x02#8, 0x10#8, 0x12#8, 0x40#8, 0x44#8, 0x48#8, 0x51#8, 0x80#8, 0x81#8, 0x83#8, 0x9F#8, 0xA5#8,
      0xC0#8, 0xC1#8, 0xFF#8], lookup Config.default b = none := by decide

/-! ### One step of each instruction, from spec/95_test_vectors.md -/

/-- V-FETCH-1, V-FETCH-3. -/
theorem test_fetch_outside :
    faultIs (step (machine 256 [] [] [])) (.outOfBounds 256) 0x00#8 256 (fun _ => true) = true ∧
    faultIs (step (machine (-1) [] [] [])) (.outOfBounds (-1)) 0x00#8 (-1) (fun _ => true) = true := by decide

/-- V-DEC-14: bits 7:6 = 3. -/
theorem test_step_unsupported :
    faultIs (step (machine 32 [0xC0#8] [(.r0, 1)] [])) (.unsupportedInstruction 0xC0#8) 0xC0#8 32
      (fun t => t.reg .r0 == 1) = true := by decide

/-- V-LDI-3, V-LDI-7: 0x80 is 128; the pc does not wrap. -/
theorem test_ldi :
    nextIs (step (machine 0 [0x82#8, 0x05#8, 0x80#8] [(.r5, -9)] [])) (fun t => t.reg .r5 == 128 && t.pc == 3) = true ∧
    nextIs (step (machine 253 [0x82#8, 0x03#8, 0x2A#8] [] [])) (fun t => t.reg .r3 == 42 && t.pc == 256) = true := by
  decide

/-- V-LDI-5b: the operand bytes are read before the register is checked. -/
theorem test_ldi_fault :
    faultIs (step (machine 254 [0x82#8, 0x09#8] [] [])) (.outOfBounds 256) 0x82#8 254 (fun _ => true) = true := by decide

/-- V-PRN-3: the text of -17 and a line feed. -/
theorem test_prn :
    nextIs (step (machine 0 [0x47#8, 0x01#8] [(.r1, -17)] []))
      (fun t => t.outBytes == [0x2D#8, 0x31#8, 0x37#8, 0x0A#8] && t.pc == 2) = true := by decide

/-- V-PRN-7: the index is the whole byte. -/
theorem test_prn_fault :
    faultIs (step (machine 0 [0x47#8, 0xFF#8] [] [])) (.invalidRegister 0xFF#8) 0x47#8 0 (fun t => t.out == []) =
      true := by decide

/-- V-HLT-2: HLT at 255. -/
theorem test_hlt :
    nextIs (step (machine 255 [0x01#8] [] [])) (fun t => t.status == .halted && t.pc == 256 && t.fault == none) =
      true := by decide

/-- V-ALU-2, V-ALU-15: an exact sum; the stack pointer as destination. -/
theorem test_add :
    nextIs (step (machine 0 [0xA0#8, 0x00#8, 0x01#8] [(.r0, 200), (.r1, 100)] []))
      (fun t => t.reg .r0 == 300 && t.reg .r1 == 100 && t.pc == 3) = true ∧
    nextIs (step (machine 0 [0xA0#8, 0x07#8, 0x00#8] [(.r0, 2)] [])) (fun t => t.reg .r7 == 246) = true := by decide

/-- V-ALU-18: the first register is checked first. -/
theorem test_add_fault :
    faultIs (step (machine 0 [0xA0#8, 0x09#8, 0x0A#8] [] [])) (.invalidRegister 0x09#8) 0xA0#8 0 (fun _ => true) =
      true := by decide

/-- V-ALU-12: the operands are not exchanged. -/
theorem test_sub :
    nextIs (step (machine 0 [0xA1#8, 0x00#8, 0x01#8] [(.r0, 3), (.r1, 5)] []))
      (fun t => t.reg .r0 == -2 && t.reg .r1 == 5) = true := by decide

/-- V-ALU-2. -/
theorem test_mul :
    nextIs (step (machine 0 [0xA2#8, 0x00#8, 0x01#8] [(.r0, 200), (.r1, 100)] [])) (fun t => t.reg .r0 == 20000) =
      true := by decide

/-- V-ALU-9: 7 div -2 = -4. -/
theorem test_div :
    nextIs (step (machine 0 [0xA3#8, 0x00#8, 0x01#8] [(.r0, 7), (.r1, -2)] []))
      (fun t => t.reg .r0 == -4 && t.reg .r1 == -2) = true := by decide

/-- V-ALU-6: the index of the divisor register is recorded. -/
theorem test_div_fault :
    faultIs (step (machine 0 [0xA3#8, 0x00#8, 0x01#8] [(.r0, 5)] [])) (.divisionByZero 0x01#8) 0xA3#8 0
      (fun t => t.reg .r0 == 5) = true := by decide

/-- V-ALU-8, V-ALU-23: -7 mod 2 = 1; R6 and R5 as operands. -/
theorem test_mod :
    nextIs (step (machine 0 [0xA4#8, 0x00#8, 0x01#8] [(.r0, -7), (.r1, 2)] [])) (fun t => t.reg .r0 == 1) = true ∧
    nextIs (step (machine 0 [0xA4#8, 0x06#8, 0x05#8] [(.r6, 10), (.r5, 3)] []))
      (fun t => t.reg .r6 == 1 && t.reg .r5 == 3) = true := by decide

/-- The sign table of R137: each row is (a, b, a div b, a mod b). -/
theorem test_sign_table :
    ∀ e ∈ [((7 : Int), (2 : Int), (3 : Int), (1 : Int)), (-7, 2, -4, 1), (7, -2, -4, -1), (-7, -2, 3, -1), (6, 3, 2, 0),
        (-6, 3, -2, 0), (6, -3, -2, 0), (0, 5, 0, 0), (0, -5, 0, 0), (3, 5, 0, 3), (-3, 5, -1, 2), (3, -5, -1, -2),
        (255, 1, 255, 0)],
      AluOp.apply Config.default .div e.1 e.2.1 = e.2.2.1 ∧ AluOp.apply Config.default .mod e.1 e.2.1 = e.2.2.2 := by
  decide

/-- V-PUSH-2, V-PUSH-10: PUSH R7 pushes the decremented pointer; the own operand byte is overwritten after it was read. -/
theorem test_push :
    nextIs (step (machine 0 [0x45#8, 0x07#8] [] []))
      (fun t => t.reg .r7 == 0xF3 && t.cell 0xF3 == 0xF3#8 && t.pc == 2) = true ∧
    nextIs (step (machine 16 [0x45#8, 0x00#8] [(.r0, 3), (.r7, 18)] []))
      (fun t => t.reg .r7 == 17 && t.cell 17 == 3#8 && t.pc == 18) = true := by decide

/-- V-PUSH-11, V-PUSH-9: the address before the value; the decremented pointer stays. -/
theorem test_push_fault :
    faultIs (step (machine 0 [0x45#8, 0x00#8] [(.r0, -1), (.r7, 0)] [])) (.outOfBounds (-1)) 0x45#8 0
      (fun t => t.reg .r7 == -1) = true ∧
    faultIs (step (machine 255 [0x45#8] [] [])) (.outOfBounds 256) 0x45#8 255 (fun t => t.reg .r7 == 0xF3) = true := by
  decide

/-- V-POP-2, V-POP-9: POP R7 leaves the byte plus 1; the byte is unsigned. -/
theorem test_pop :
    nextIs (step (machine 0 [0x46#8, 0x07#8] [(.r7, 0xF0)] [(0xF0, 0x20#8)])) (fun t => t.reg .r7 == 33 && t.pc == 2) =
      true ∧
    nextIs (step (machine 0 [0x46#8, 0x00#8] [(.r7, 0x80)] [(0x80, 0xFF#8)]))
      (fun t => t.reg .r0 == 255 && t.reg .r7 == 0x81 && t.cell 0x80 == 0xFF#8) = true := by decide

/-- V-POP-8, V-POP-10: the stack is read first; with REG_MAX = 255 the destination is written before the fault. -/
theorem test_pop_fault :
    faultIs (step (machine 255 [0x46#8] [] [])) (.outOfBounds 256) 0x46#8 255 (fun t => t.reg .r7 == 0xF4) = true ∧
    faultIs (stepWith narrow (machine 0 [0x46#8, 0x00#8] [(.r7, 255)] [(255, 7#8)])) (.valueOutOfRange 256) 0x46#8 0
      (fun t => t.reg .r0 == 7 && t.reg .r7 == 255) = true := by decide

/-- V-CALL-10, V-CALL-2: the own operand is overwritten before it is read; CALL R7 goes to the decremented pointer. -/
theorem test_call :
    nextIs (step (machine 4 [0x50#8, 0x00#8] [(.r0, 0x20), (.r6, 0x30), (.r7, 6)] []))
      (fun t => t.reg .r7 == 5 && t.cell 5 == 6#8 && t.pc == 48) = true ∧
    nextIs (step (machine 6 [0x50#8, 0x07#8] [] []))
      (fun t => t.reg .r7 == 0xF3 && t.cell 0xF3 == 8#8 && t.pc == 0xF3) = true := by decide

/-- V-CALL-9, V-CALL-12: the return address is written before the index is checked; the address before the value. -/
theorem test_call_fault :
    faultIs (step (machine 6 [0x50#8, 0x08#8] [] [])) (.invalidRegister 0x08#8) 0x50#8 6
      (fun t => t.reg .r7 == 0xF3 && t.cell 0xF3 == 8#8) = true ∧
    faultIs (step (machine 254 [0x50#8, 0x00#8] [(.r7, 0)] [])) (.outOfBounds (-1)) 0x50#8 254
      (fun t => t.reg .r7 == -1) = true := by decide

/-- V-RET-1. -/
theorem test_ret :
    nextIs (step (machine 15 [0x11#8] [(.r7, 0xF3)] [(0xF3, 8#8)]))
      (fun t => t.pc == 8 && t.reg .r7 == 0xF4 && t.cell 0xF3 == 8#8) = true := by decide

/-- V-RET-6: with REG_MAX = 255 the pc and the pointer stay. -/
theorem test_ret_fault :
    faultIs (stepWith narrow (machine 0 [0x11#8] [(.r7, 255)] [(255, 0x40#8)])) (.valueOutOfRange 256) 0x11#8 0
      (fun t => t.reg .r7 == 255) = true := by decide

/-- V-ALU-24, V-ALU-27: an 8-bit register range. -/
theorem test_narrow_range :
    faultIs (stepWith narrow (machine 0 [0xA1#8, 0x00#8, 0x01#8] [(.r0, 3), (.r1, 5)] [])) (.valueOutOfRange (-2)) 0xA1#8
      0 (fun t => t.reg .r0 == 3) = true ∧
    nextIs (stepWith narrow (machine 0 [0xA0#8, 0x00#8, 0x01#8] [(.r0, 200), (.r1, 55)] []))
      (fun t => t.reg .r0 == 255 && t.pc == 3) = true := by decide

/-! ### Witnesses: for each obligation with hypotheses, concrete states and operands that meet them -/

/-- A next state with a property, as a proposition. -/
theorem next_of {r : Result} {p : State → Bool} (h : nextIs r p = true) : ∃ t, r = .next t ∧ p t = true := by
  cases r with
  | next t => exact ⟨t, rfl, h⟩
  | fault _ => cases h
  | refused _ => cases h

/-- The core is Running with no fault recorded, memory is canonical, and the next fetch reads `b`. -/
def ready (s : State) (b : Byte) : Bool :=
  s.status == .running && s.fault == none && s.mem.wf && decide (validAddress s.pc) && s.cell s.pc == b

theorem ready_inv {s : State} {b : Byte} (h : ready s b = true) : s.Inv := by
  simp only [ready, Bool.and_eq_true, beq_iff_eq] at h
  exact ⟨h.1.1.2, by simp [h.1.1.1.1, h.1.1.1.2]⟩

theorem ready_fetches {s : State} {b : Byte} (h : ready s b = true) : s.Fetches b := by
  simp only [ready, Bool.and_eq_true, beq_iff_eq, decide_eq_true_eq] at h
  exact ⟨h.1.1.1.1, h.1.2, h.2⟩

/-- A state for each opcode in which its step completes, at a boundary where there is one. -/
def completing : List (State × Byte) :=
  [(machine 253 [0x82#8, 0x07#8, 0xFF#8] [] [], 0x82#8), (machine 254 [0x47#8, 0x07#8] [] [], 0x47#8),
    (machine 255 [0x01#8] [] [], 0x01#8), (machine 253 [0xA0#8, 0x00#8, 0x07#8] [] [], 0xA0#8),
    (machine 0 [0xA1#8, 0x00#8, 0x07#8] [] [], 0xA1#8), (machine 0 [0xA2#8, 0x07#8, 0x07#8] [] [], 0xA2#8),
    (machine 0 [0xA3#8, 0x00#8, 0x07#8] [] [], 0xA3#8), (machine 0 [0xA4#8, 0x00#8, 0x07#8] [] [], 0xA4#8),
    (machine 254 [0x45#8, 0x00#8] [(.r7, 256)] [], 0x45#8), (machine 0 [0x46#8, 0x07#8] [(.r7, 255)] [], 0x46#8),
    (machine 253 [0x50#8, 0x00#8] [(.r7, 1)] [], 0x50#8), (machine 4 [0x50#8, 0x00#8] [(.r7, 6)] [], 0x50#8),
    (machine 255 [0x11#8] [(.r7, 0)] [], 0x11#8)]

theorem completing_ready : ∀ e ∈ completing,
    ready e.1 e.2 = true ∧ nextIs (step e.1) (fun t => t.status != .faulted) = true := by decide

theorem witness_DecodeOfEncodeIsTheInstruction :
    Config.default.valid = true ∧ narrow.valid = true ∧
    Instr.wf (.ldi (.byte 0#8) (.byte 255#8)) = true ∧ Instr.complete (.ldi (.byte 0#8) (.byte 255#8)) = true ∧
    Instr.wf (.ldi (.byte 7#8) .beyond) = true ∧ Instr.wf (.call .beyond) = true := by decide

theorem witness_EncodeOfDecodeIsTheBytes :
    decodeWith Config.default [0x82#8, 0x00#8, 0xFF#8, 0x47#8] = .ok (.ldi (.byte 0#8) (.byte 255#8), [0x47#8]) ∧
    decodeWith Config.default [0xA4#8] = .ok (.mod .beyond .beyond, []) := ⟨rfl, rfl⟩

theorem witness_LengthIsOperandCountPlusOne :
    Config.default.valid = true ∧ Instr.complete (.mod (.byte 8#8) (.byte 255#8)) = true ∧
    encodeWith Config.default (.mod (.byte 8#8) (.byte 255#8)) = 0xA4#8 :: [8#8, 255#8] ∧
    Instr.complete .hlt = true ∧ encodeWith Config.default .hlt = 0x01#8 :: [] := by decide

theorem witness_MemReadFollowsItsRule :
    memRead (machine 0 [0x82#8] [] [(255, 9#8)]) 0 = .ok 0x82#8 ∧
    memRead (machine 0 [0x82#8] [] [(255, 9#8)]) 255 = .ok 9#8 ∧
    memRead State.reset (-1) = .error (.outOfBounds (-1)) ∧ memRead State.reset 256 = .error (.outOfBounds 256) :=
  ⟨rfl, rfl, rfl, rfl⟩

theorem witness_MemWriteFollowsItsRule :
    State.reset.mem.wf = true ∧
    memWrite State.reset 256 (-1) = .error (.outOfBounds 256) ∧
    memWrite State.reset (-1) 0 = .error (.outOfBounds (-1)) ∧
    memWrite State.reset 255 (-1) = .error (.valueOutOfRange (-1)) ∧
    memWrite State.reset 0 256 = .error (.valueOutOfRange 256) ∧
    memWrite State.reset 255 255 = .ok (State.reset.setCell 255 255#8) ∧
    memWrite State.reset 0 0 = .ok State.reset := ⟨rfl, rfl, rfl, rfl, rfl, rfl, rfl⟩

theorem witness_RegisterAccessFollowsItsRule :
    (8 ≤ (8#8).toNat ∧ 8 ≤ (255#8).toNat ∧ (7#8).toNat < 8 ∧ (0#8).toNat < 8) ∧
    readReg State.reset 8#8 = .error (.invalidRegister 8#8) ∧ readReg State.reset 7#8 = .ok 0xF4 := ⟨by decide, rfl, rfl⟩

theorem witness_StepRunsTheDecodedInstruction :
    (machine 253 [0x82#8, 0x07#8, 0xFF#8] [] []).Fetches 0x82#8 ∧
    decode (0x82#8 :: operandBytes (machine 253 [0x82#8, 0x07#8, 0xFF#8] [] [])) =
      .ok (.ldi (.byte 7#8) (.byte 255#8), []) ∧
    (machine 255 [0x82#8] [] []).Fetches 0x82#8 ∧
    decode (0x82#8 :: operandBytes (machine 255 [0x82#8] [] [])) = .ok (.ldi .beyond .beyond, []) :=
  ⟨ready_fetches (by decide), rfl, ready_fetches (by decide), rfl⟩

theorem witness_FetchFollowsItsRule :
    (machine 256 [] [] []).status = .running ∧ (255 : Int) < (machine 256 [] [] []).pc ∧
    (machine (-1) [] [] []).status = .running ∧ (machine (-1) [] [] []).pc < 0 ∧
    (machine 255 [0x01#8] [] []).status = .running ∧ (machine 255 [0x01#8] [] []).pc = 255 ∧
    nextIs (step (machine 255 [0x01#8] [] [])) (fun t => t.ir == 0x01#8) = true := by decide

/-- All six clauses: `completing` holds a state of each opcode. -/
theorem witness_GenericAdvanceFollowsItsRule :
    Config.default.valid = true ∧
    ∀ e ∈ completing, e.1.Inv ∧ e.1.Fetches e.2 ∧
      ∃ t, stepWith Config.default e.1 = .next t ∧ t.status ≠ .faulted := by
  refine ⟨by decide, fun e he => ?_⟩
  obtain ⟨hr, _⟩ := completing_ready e he
  have h : ∀ e ∈ completing, nextIs (stepWith Config.default e.1) (fun t => t.status != .faulted) = true := by decide
  obtain ⟨t, ht, hs⟩ := next_of (h e he)
  exact ⟨ready_inv hr, ready_fetches hr, t, ht, by simpa using hs⟩

theorem witness_RunningCoreAlwaysSteps : State.reset.status = .running := rfl

theorem witness_EndedCoreTakesNoStep :
    (State.reset.setStatus .halted).status = .halted ∧
    (State.reset.faultedBy (.outOfBounds 256)).status = .faulted := ⟨rfl, rfl⟩

theorem witness_OnlyHltAndFaultsEndARun :
    (∃ t, step (machine 255 [0x01#8] [] []) = .next t ∧ (t.status == .halted) = true) ∧
    (∃ t, step (machine 0 [0x47#8, 0x08#8] [] []) = .next t ∧ (t.status == .faulted) = true) ∧
    ∃ t, step (machine 0 [0x47#8, 0x07#8] [] []) = .next t ∧ (t.status == .running) = true :=
  ⟨next_of (by decide), next_of (by decide), next_of (by decide)⟩

/-- At reset, at the last pc where three bytes fit, and where they do not. -/
theorem witness_PlacedWordIsRunNext :
    decodeTableWord 24 0x080082 = some (.ldi (.byte 0x00#8) (.byte 0x08#8)) ∧ State.reset.mem.wf = true ∧
    (machine 253 [] [] []).mem.wf = true ∧ (machine 254 [] [] []).mem.wf = true ∧
    nextIs (step ((machine 253 [] [] []).withFetchWord 24 0x080082)) (fun t => t.reg .r0 == 8 && t.pc == 256) = true ∧
    nextIs (step ((machine 254 [] [] []).withFetchWord 24 0x080082)) (fun t => t.reg .r0 == 8 && t.pc == 3) = true := by
  decide

theorem witness_LdiLoadsTheImmediate : Reg.ofIndex (7#8).toNat = some .r7 := by decide
theorem witness_PrnEmitsTheRegister : Reg.ofIndex (7#8).toNat = some .r7 := by decide

theorem witness_AddSubMulAreExact :
    Reg.ofIndex (0#8).toNat = some .r0 ∧ Reg.ofIndex (7#8).toNat = some .r7 := by decide

theorem witness_DivModAreFloorDivision :
    Reg.ofIndex (0#8).toNat = some .r0 ∧ Reg.ofIndex (7#8).toNat = some .r7 ∧ State.reset.reg .r7 ≠ 0 ∧
    Reg.ofIndex (1#8).toNat = some .r1 ∧ (machine 0 [] [(.r1, -1)] []).reg .r1 < 0 := by decide

/-- Both clauses on the divisor: R7 holds 244 and R0 holds 0 after reset. -/
theorem witness_AluWithOneRegisterTwice :
    Reg.ofIndex (7#8).toNat = some .r7 ∧ State.reset.reg .r7 ≠ 0 ∧ Reg.ofIndex (0#8).toNat = some .r0 ∧
    State.reset.reg .r0 = 0 := by decide

/-- The lowest and the highest slot; R0 with 0, and R7 with the decremented pointer 255. -/
theorem witness_PushStoresAtTheNewPointer :
    (machine 0 [] [(.r7, 1)] []).mem.wf = true ∧ validAddress (machine 0 [] [(.r7, 1)] []).pushSlot ∧
    Reg.ofIndex (0#8).toNat = some .r0 ∧ (0 ≤ (0 : Int) ∧ (0 : Int) ≤ 255) ∧
    (machine 0 [] [(.r7, 1)] []).reg .r0 = 0 ∧ validAddress (machine 0 [] [(.r7, 256)] []).pushSlot ∧
    Reg.ofIndex (7#8).toNat = some .r7 ∧ (machine 0 [] [(.r7, 256)] []).reg .r7 - 1 = 255 := by decide

theorem witness_PopLoadsFromThePointer :
    Reg.ofIndex (0#8).toNat = some .r0 ∧ Reg.ofIndex (7#8).toNat = some .r7 ∧
    validAddress (machine 0 [] [(.r7, 0)] []).popSlot ∧ validAddress (machine 0 [] [(.r7, 255)] []).popSlot := by decide

/-- The ordinary case, and the case where the store lands on the operand byte (V-CALL-10). -/
theorem witness_CallPushesTheReturnAddress :
    (∃ s : State, s.mem.wf = true ∧ validAddress s.pushSlot ∧ s.pc + (nops s.ir : Int) + 1 = 255 ∧
      s.pushSlot ≠ s.pc + 1 ∧ Reg.ofIndex (7#8).toNat = some .r7) ∧
    ∃ s : State, s.mem.wf = true ∧ validAddress s.pushSlot ∧ s.pushSlot = s.pc + 1 ∧
      s.pc + (nops s.ir : Int) + 1 = 6 ∧ Reg.ofIndex (BitVec.ofNat 8 6).toNat = some .r6 :=
  ⟨⟨(machine 253 [0x50#8, 0x07#8] [] []).setIr 0x50#8, by decide⟩,
    (machine 4 [0x50#8, 0x00#8] [(.r7, 6)] []).setIr 0x50#8, by decide⟩

theorem witness_RetGoesToTheTopOfTheStack :
    validAddress (machine 0 [] [(.r7, 0)] []).popSlot ∧ validAddress (machine 0 [] [(.r7, 255)] []).popSlot := by decide

/-- Each form answers a next state, and each can fault. -/
theorem witness_LoadAndAluFrame :
    (∃ t, exec (.ldi (.byte 7#8) (.byte 1#8)) State.reset = .next t ∧ (t.status == .running) = true) ∧
    (∃ t, exec (.add (.byte 0#8) (.byte 7#8)) State.reset = .next t ∧ (t.status == .running) = true) ∧
    (∃ t, exec (.sub (.byte 0#8) (.byte 7#8)) State.reset = .next t ∧ (t.status == .running) = true) ∧
    (∃ t, exec (.mul (.byte 0#8) (.byte 7#8)) State.reset = .next t ∧ (t.status == .running) = true) ∧
    (∃ t, exec (.div (.byte 0#8) (.byte 7#8)) State.reset = .next t ∧ (t.status == .running) = true) ∧
    (∃ t, exec (.mod (.byte 0#8) (.byte 7#8)) State.reset = .next t ∧ (t.status == .running) = true) ∧
    ∃ t, exec (.mod (.byte 7#8) (.byte 0#8)) State.reset = .next t ∧ (t.status == .faulted) = true :=
  ⟨next_of (by decide), next_of (by decide), next_of (by decide), next_of (by decide), next_of (by decide),
    next_of (by decide), next_of (by decide)⟩

theorem witness_PrnHltFrame :
    (∃ t, exec (.prn (.byte 7#8)) State.reset = .next t ∧ (t.out == [244]) = true) ∧
    (∃ t, exec (.prn (.byte 8#8)) State.reset = .next t ∧ (t.status == .faulted) = true) ∧
    State.reset.status ≠ .faulted ∧ ∃ t, exec .hlt State.reset = .next t ∧ (t.status == .halted) = true :=
  ⟨next_of (by decide), next_of (by decide), by decide, next_of (by decide)⟩

theorem witness_PushCallFrame :
    (∃ t, exec (.push (.byte 7#8)) State.reset = .next t ∧ (t.status == .running) = true) ∧
    (∃ t, exec (.push (.byte 8#8)) State.reset = .next t ∧ (t.status == .faulted) = true) ∧
    (∃ t, exec (.call (.byte 7#8)) State.reset = .next t ∧ (t.status == .running) = true) ∧
    ∃ t, exec (.call (.byte 8#8)) State.reset = .next t ∧ (t.status == .faulted) = true :=
  ⟨next_of (by decide), next_of (by decide), next_of (by decide), next_of (by decide)⟩

theorem witness_PopRetFrame :
    (∃ t, exec (.pop (.byte 0#8)) State.reset = .next t ∧ (t.status == .running) = true) ∧
    (∃ t, exec (.pop (.byte 8#8)) State.reset = .next t ∧ (t.status == .faulted) = true) ∧
    (∃ t, exec .ret State.reset = .next t ∧ (t.status == .running) = true) ∧
    ∃ t, exec .ret (machine 0 [] [(.r7, 256)] []) = .next t ∧ (t.status == .faulted) = true :=
  ⟨next_of (by decide), next_of (by decide), next_of (by decide), next_of (by decide)⟩

/-- A PUSH at the highest slot and a CALL at the lowest one change memory. -/
theorem witness_OnlyPushAndCallWriteMemory :
    (∃ t, step (machine 0 [0x45#8, 0x00#8] [(.r0, 9), (.r7, 256)] []) = .next t ∧ (t.mem.read 255 == 9#8) = true) ∧
    (machine 0 [0x45#8, 0x00#8] [(.r0, 9), (.r7, 256)] []).mem.read 255 ≠ 9#8 ∧
    (∃ t, step (machine 6 [0x50#8, 0x02#8] [(.r7, 1)] []) = .next t ∧ (t.mem.read 0 == 8#8) = true) ∧
    (machine 6 [0x50#8, 0x02#8] [(.r7, 1)] []).mem.read 0 ≠ 8#8 :=
  ⟨next_of (by decide), by decide, next_of (by decide), by decide⟩

theorem witness_OnlyPrnAppendsToTheOutput :
    (∃ t, step (machine 254 [0x47#8, 0x07#8] [] []) = .next t ∧ (t.out == [244]) = true) ∧
    ∃ t, step (machine 255 [0x01#8] [] []) = .next t ∧ (t.out == []) = true :=
  ⟨next_of (by decide), next_of (by decide)⟩

/-- All three clauses: pc = 255, an index 8, and an index 7 in the last two cells. -/
theorem witness_PrnStepFollowsItsRule :
    ((machine 255 [0x47#8] [] []).Fetches 0x47#8 ∧ (machine 255 [0x47#8] [] []).pc = 255) ∧
    ((machine 0 [0x47#8, 0x08#8] [] []).Fetches 0x47#8 ∧ 8 ≤ ((machine 0 [0x47#8, 0x08#8] [] []).cell 1).toNat) ∧
    ((machine 254 [0x47#8, 0x07#8] [] []).Fetches 0x47#8 ∧
      Reg.ofIndex ((machine 254 [0x47#8, 0x07#8] [] []).cell 255).toNat = some .r7) :=
  ⟨⟨ready_fetches (by decide), by decide⟩, ⟨ready_fetches (by decide), by decide⟩,
    ⟨ready_fetches (by decide), by decide⟩⟩

theorem witness_HltStepFollowsItsRule :
    (machine 255 [0x01#8] [] []).Fetches 0x01#8 ∧
    (∃ t, step (machine 255 [0x01#8] [] []) = .next t ∧ (t.status == .halted) = true) ∧
    (State.reset.setStatus .halted).status = .halted :=
  ⟨ready_fetches (by decide), next_of (by decide), rfl⟩

/-- Both clauses: a byte that is no opcode value, and one that is. -/
theorem witness_UnsupportedInstructionFollowsItsRule :
    (machine 255 [0xC1#8] [] []).Fetches 0xC1#8 ∧ (∀ h : Handler, h.opcode Config.default ≠ 0xC1#8) ∧
    (machine 0 [0x47#8, 0x08#8] [] []).Fetches 0x47#8 ∧ Handler.opcode Config.default .prn = 0x47#8 ∧
    (machine 0 [0x47#8, 0x08#8] [] []).fault = none ∧
    ∃ t, stepWith Config.default (machine 0 [0x47#8, 0x08#8] [] []) = .next t ∧ t.fault.isSome = true :=
  ⟨ready_fetches (by decide), by intro h; cases h <;> decide, ready_fetches (by decide), rfl, by decide,
    next_of (by decide)⟩

/-- DIV at the last address where it fits, MOD, and a run of the second half. -/
theorem witness_DivisionByZeroFollowsItsRule :
    Config.default.valid = true ∧
    (machine 253 [0xA3#8, 0x07#8, 0x00#8] [] []).Fetches Config.default.opcDiv ∧
    (machine 253 [0xA3#8, 0x07#8, 0x00#8] [] []).cell 254 = 7#8 ∧
    (machine 253 [0xA3#8, 0x07#8, 0x00#8] [] []).cell 255 = 0#8 ∧
    Reg.ofIndex (7#8).toNat = some .r7 ∧ Reg.ofIndex (0#8).toNat = some .r0 ∧
    (machine 253 [0xA3#8, 0x07#8, 0x00#8] [] []).reg .r0 = 0 ∧
    (machine 0 [0xA4#8, 0x00#8, 0x00#8] [] []).Fetches Config.default.opcMod ∧
    ∃ t, stepWith Config.default (machine 0 [0xA4#8, 0x00#8, 0x00#8] [] []) = .next t ∧
      (t.fault == some { cause := .divisionByZero 0#8, opcode := 0xA4#8, pc0 := 0 }) = true :=
  ⟨by decide, ready_fetches (by decide), by decide, by decide, by decide, by decide, by decide,
    ready_fetches (by decide), next_of (by decide)⟩

/-- Every clause at the reset state, with the lowest invalid index. -/
theorem witness_InvalidRegisterTraps :
    8 ≤ (8#8).toNat ∧ (7#8).toNat < 8 ∧ validAddress State.reset.popSlot ∧ validAddress State.reset.pushSlot ∧
    State.reset.pushSlot ≠ State.reset.pc + 1 ∧ 0 ≤ State.reset.pc + (nops State.reset.ir : Int) + 1 ∧
    State.reset.pc + (nops State.reset.ir : Int) + 1 ≤ 255 := by decide

theorem witness_OperandPastMemoryTraps :
    ((machine 254 [0xA4#8, 0x00#8] [] []).Fetches 0xA4#8 ∧ (machine 254 [0xA4#8, 0x00#8] [] []).pc = 254) ∧
    ((machine 255 [0x82#8] [] []).Fetches 0x82#8 ∧ (machine 255 [0x82#8] [] []).pc = 255) ∧
    (machine 255 [0x47#8] [] []).Fetches 0x47#8 ∧ (machine 255 [0x45#8] [] []).Fetches 0x45#8 ∧
    (machine 255 [0x46#8] [] []).Fetches 0x46#8 ∧ validAddress (machine 255 [0x46#8] [] []).popSlot :=
  ⟨⟨ready_fetches (by decide), rfl⟩, ⟨ready_fetches (by decide), rfl⟩, ready_fetches (by decide),
    ready_fetches (by decide), ready_fetches (by decide), by decide⟩

/-- Every clause: slots -1, 256 and 255; a value -1 and 256; a return address 256. -/
theorem witness_StackAccessTraps :
    Reg.ofIndex (0#8).toNat = some .r0 ∧ ¬ validAddress (machine 0 [] [(.r7, 0)] []).pushSlot ∧
    ¬ validAddress (machine 0 [] [(.r7, 257)] []).pushSlot ∧
    (validAddress (machine 0 [] [(.r0, -1), (.r7, 256)] []).pushSlot ∧
      (machine 0 [] [(.r0, -1), (.r7, 256)] []).reg .r0 < 0) ∧
    (validAddress (machine 0 [] [(.r0, 256)] []).pushSlot ∧ 255 < (machine 0 [] [(.r0, 256)] []).reg .r0) ∧
    (validAddress ((machine 254 [] [] []).setIr 0x50#8).pushSlot ∧
      255 < ((machine 254 [] [] []).setIr 0x50#8).pc + (nops ((machine 254 [] [] []).setIr 0x50#8).ir : Int) + 1) ∧
    ¬ validAddress (machine 0 [] [(.r7, 256)] []).popSlot ∧ ¬ validAddress (machine 0 [] [(.r7, -1)] []).popSlot := by
  decide

/-- A fault with no effect, one of PUSH and one of CALL with its store. -/
theorem witness_FaultsArePrecise :
    ((machine 0 [0x47#8, 0x08#8] [] []).Inv ∧
      ∃ t, step (machine 0 [0x47#8, 0x08#8] [] []) = .next t ∧ (t.status == .faulted) = true) ∧
    ((machine 0 [0x45#8, 0x08#8] [] []).Inv ∧ ∃ t, step (machine 0 [0x45#8, 0x08#8] [] []) = .next t ∧
      (t.status == .faulted && t.reg .r7 == 0xF3) = true) ∧
    ((machine 6 [0x50#8, 0x08#8] [] []).Inv ∧ ∃ t, step (machine 6 [0x50#8, 0x08#8] [] []) = .next t ∧
      (t.status == .faulted && t.mem.read 0xF3 == 8#8) = true) :=
  ⟨⟨⟨by decide, by decide⟩, next_of (by decide)⟩, ⟨⟨by decide, by decide⟩, next_of (by decide)⟩,
    ⟨⟨by decide, by decide⟩, next_of (by decide)⟩⟩

/-- Each kind that an instruction can raise. -/
theorem witness_WhichInstructionRaisesWhichFault :
    State.reset.fault = none ∧
    (∃ t, exec (.prn (.byte 8#8)) State.reset = .next t ∧
      (t.fault == some { cause := .invalidRegister 8#8, opcode := 0#8, pc0 := 0 }) = true) ∧
    (∃ t, exec (.div (.byte 7#8) (.byte 0#8)) State.reset = .next t ∧
      (t.fault == some { cause := .divisionByZero 0#8, opcode := 0#8, pc0 := 0 }) = true) ∧
    (∃ t, exec (.ldi (.byte 0#8) .beyond) (machine 254 [] [] []) = .next t ∧
      (t.fault == some { cause := .outOfBounds 256, opcode := 0#8, pc0 := 254 }) = true) ∧
    ∃ t, exec (.push (.byte 0#8)) (machine 0 [] [(.r0, -1)] []) = .next t ∧
      (t.fault == some { cause := .valueOutOfRange (-1), opcode := 0#8, pc0 := 0 }) = true :=
  ⟨rfl, next_of (by decide), next_of (by decide), next_of (by decide), next_of (by decide)⟩

/-- A step that stores, from a state that meets the invariant; and one that faults. -/
theorem witness_StepKeepsTheInvariant :
    ((machine 0 [0x45#8, 0x07#8] [] []).Inv ∧
      ∃ t, step (machine 0 [0x45#8, 0x07#8] [] []) = .next t ∧ (t.cell 0xF3 == 0xF3#8) = true) ∧
    ((machine 255 [0x47#8] [] []).Inv ∧
      ∃ t, step (machine 255 [0x47#8] [] []) = .next t ∧ (t.status == .faulted) = true) :=
  ⟨⟨⟨by decide, by decide⟩, next_of (by decide)⟩, ⟨⟨by decide, by decide⟩, next_of (by decide)⟩⟩

/-- The 8-bit range, at both ends of it. -/
theorem witness_RegistersStayInTheirRange :
    narrow.valid = true ∧ (machine 0 [0xA0#8, 0x00#8, 0x01#8] [(.r0, 255), (.r1, 0)] []).regsInRange narrow ∧
    ∃ t, stepWith narrow (machine 0 [0xA0#8, 0x00#8, 0x01#8] [(.r0, 255), (.r1, 0)] []) = .next t ∧
      (t.reg .r0 == 255) = true :=
  ⟨by decide, by intro r; cases r <;> decide, next_of (by decide)⟩

/-- The result 255 fits and 256 does not; a DIV with a divisor other than 0. -/
theorem witness_FiniteRangeAluFaults :
    Reg.ofIndex (0#8).toNat = some .r0 ∧ Reg.ofIndex (1#8).toNat = some .r1 ∧
    narrow.regMin = some 0 ∧ narrow.regMax = some 255 ∧
    AluOp.apply narrow .add 200 55 = 255 ∧ AluOp.apply narrow .mul 16 16 = 256 ∧ AluOp.apply narrow .sub 3 4 = -1 ∧
    AluOp.apply narrow .sub 3 3 = 0 ∧ (machine 0 [] [(.r1, 1)] []).reg .r1 ≠ 0 := by decide

/-- The pointer cannot move below 0 or above 255. -/
theorem witness_FiniteRangeStackPointerFaults :
    narrow.valid = true ∧ Reg.ofIndex (0#8).toNat = some .r0 ∧
    inRange narrow ((machine 0 [] [(.r7, 0)] []).reg .r7 - 1) = false ∧
    validAddress (machine 0 [] [(.r7, 255)] []).popSlot ∧
    inRange narrow ((machine 0 [] [(.r7, 255)] []).reg .r7 + 1) = false := by decide

/-- -7 div 2 = -3 with remainder -1 when the quotient is rounded toward zero. -/
theorem witness_TruncatingDivision :
    truncating.divRound = .truncate ∧ (2 : Int) ≠ 0 ∧ AluOp.apply truncating .div (-7) 2 = -3 ∧
    AluOp.apply truncating .mod (-7) 2 = -1 := by decide

/-- An ALU instruction that names neither R5 nor R6, and a CALL whose store lands on its operand byte (it names R6). -/
theorem witness_ReservedRegistersAreInert :
    (∀ b i rest, (machine 0 [0xA0#8, 0x00#8, 0x07#8] [] []).Fetches b →
      decode (b :: operandBytes (machine 0 [0xA0#8, 0x00#8, 0x07#8] [] [])) = .ok (i, rest) →
      ∀ o ∈ registerOperands i, ¬ OperandNames o .r6) ∧
    ¬ (machine 0 [0xA0#8, 0x00#8, 0x07#8] [] []).Fetches 0x50#8 ∧
    (machine 0 [0xA0#8, 0x00#8, 0x07#8] [] []).Inv ∧
    (machine 4 [0x50#8, 0x00#8] [(.r7, 6)] []).Inv ∧
    (machine 4 [0x50#8, 0x00#8] [(.r7, 6)] []).Fetches 0x50#8 ∧
    (machine 4 [0x50#8, 0x00#8] [(.r7, 6)] []).pushSlot = 5 ∧ Reg.ofIndex 6 ≠ some .r5 ∧
    ∃ t, step (machine 4 [0x50#8, 0x00#8] [(.r7, 6)] []) = .next t ∧ (t.status == .running) = true := by
  refine ⟨?_, ?_, ⟨by decide, by decide⟩, ⟨by decide, by decide⟩, ready_fetches (by decide), by decide, by decide,
    next_of (by decide)⟩
  · intro b i rest hf hd o ho hn
    have hb : b = 0xA0#8 := hf.holds.symm
    subst hb
    have hi : (Instr.add (.byte 0#8) (.byte 7#8), ([] : List Byte)) = (i, rest) := Except.ok.inj hd
    cases hi
    simp only [registerOperands, List.mem_cons, List.not_mem_nil, or_false] at ho
    obtain ⟨b, hb, hq⟩ := hn
    rcases ho with rfl | rfl <;> cases hb <;> revert hq <;> decide
  · intro hf
    have := hf.holds
    revert this
    decide

/-- HLT alone in memory: no state of its run stands at CALL or RET. -/
theorem witness_RunWithoutCallOrRetEnds :
    (machine 0 [0x01#8] [] []).status = .running ∧
    ∀ k t, k ≤ 257 → RunsTo k (machine 0 [0x01#8] [] []) t → ¬ t.Fetches 0x50#8 ∧ ¬ t.Fetches 0x11#8 := by
  refine ⟨rfl, fun k t _ h => ?_⟩
  cases k with
  | zero =>
    rw [runsTo_zero] at h
    subst h
    exact ⟨fun hf => absurd hf.holds (by decide), fun hf => absurd hf.holds (by decide)⟩
  | succ k =>
    obtain ⟨u, hs, hr⟩ := (runsTo_succ k _ t).1 h
    have hu : u.status = .halted := by
      obtain ⟨v, hv, hh⟩ := next_of (show nextIs (step (machine 0 [0x01#8] [] [])) (fun t => t.status == .halted) = true
        by decide)
      rw [hs] at hv
      cases hv
      simpa using hh
    cases k with
    | zero =>
      rw [runsTo_zero] at hr
      subst hr
      exact ⟨fun hf => absurd (hf.running.symm.trans hu) (by decide),
        fun hf => absurd (hf.running.symm.trans hu) (by decide)⟩
    | succ k =>
      obtain ⟨v, hv, _⟩ := (runsTo_succ k _ t).1 hr
      simp [step, cycle, hu] at hv

/-- The last address where LDI and PRN fit, the highest register, the highest byte. -/
theorem witness_LdiThenPrnEmitsTheByte :
    (machine 251 [0x82#8, 0x07#8, 0xFF#8, 0x47#8, 0x07#8] [] []).Fetches 0x82#8 ∧
    (machine 251 [0x82#8, 0x07#8, 0xFF#8, 0x47#8, 0x07#8] [] []).cell 252 = 7#8 ∧
    (machine 251 [0x82#8, 0x07#8, 0xFF#8, 0x47#8, 0x07#8] [] []).cell 253 = 255#8 ∧
    (machine 251 [0x82#8, 0x07#8, 0xFF#8, 0x47#8, 0x07#8] [] []).cell 254 = 0x47#8 ∧
    (machine 251 [0x82#8, 0x07#8, 0xFF#8, 0x47#8, 0x07#8] [] []).cell 255 = 7#8 ∧ (7#8).toNat < 8 :=
  ⟨ready_fetches (by decide), by decide, by decide, by decide, by decide, by decide⟩

/-- The texts of 0, 9, 10 and 65025. -/
theorem witness_DecimalTextSpellsTheInteger :
    decimalText 0 = [0x30#8] ∧ decimalText 9 = [0x39#8] ∧ decimalText 10 = [0x31#8, 0x30#8] ∧
    decimalText (-2) = [0x2D#8, 0x32#8] := by decide

/-- The last address where the pair fits, a slot just above it, and the highest byte value. -/
theorem witness_PushThenPopRoundTrip :
    (machine 250 [0x45#8, 0x00#8, 0x46#8, 0x01#8] [(.r0, 255), (.r7, 255)] []).Inv ∧
    (machine 250 [0x45#8, 0x00#8, 0x46#8, 0x01#8] [(.r0, 255), (.r7, 255)] []).Fetches 0x45#8 ∧
    (machine 250 [0x45#8, 0x00#8, 0x46#8, 0x01#8] [(.r0, 255), (.r7, 255)] []).cell 251 = 0#8 ∧
    (machine 250 [0x45#8, 0x00#8, 0x46#8, 0x01#8] [(.r0, 255), (.r7, 255)] []).cell 252 = 0x46#8 ∧
    (machine 250 [0x45#8, 0x00#8, 0x46#8, 0x01#8] [(.r0, 255), (.r7, 255)] []).cell 253 = 1#8 ∧
    validAddress ((machine 250 [0x45#8, 0x00#8, 0x46#8, 0x01#8] [(.r0, 255), (.r7, 255)] []).reg .r7 - 1) ∧
    Reg.ofIndex (0#8).toNat = some .r0 ∧ Reg.ofIndex (1#8).toNat = some .r1 ∧
    (machine 250 [0x45#8, 0x00#8, 0x46#8, 0x01#8] [(.r0, 255), (.r7, 255)] []).reg .r0 = 255 :=
  ⟨⟨by decide, by decide⟩, ready_fetches (by decide), by decide, by decide, by decide, by decide, by decide, by decide,
    by decide⟩

/-- The CALL and the RET of program P3 of spec/95_test_vectors.md. -/
theorem witness_CallThenRetRoundTrip :
    (machine 6 [0x50#8, 0x02#8] [(.r2, 11)] []).Inv ∧ (machine 6 [0x50#8, 0x02#8] [(.r2, 11)] []).Fetches 0x50#8 ∧
    (machine 15 [0x11#8] [(.r7, 0xF3)] [(0xF3, 8#8)]).Fetches 0x11#8 ∧
    ∃ s1, step (machine 6 [0x50#8, 0x02#8] [(.r2, 11)] []) = .next s1 ∧
      (s1.status == .running && (machine 15 [0x11#8] [(.r7, 0xF3)] [(0xF3, 8#8)]).reg .r7 == s1.reg .r7 &&
        (machine 15 [0x11#8] [(.r7, 0xF3)] [(0xF3, 8#8)]).cell (s1.reg .r7) == s1.cell (s1.reg .r7)) = true :=
  ⟨⟨by decide, by decide⟩, ready_fetches (by decide), ready_fetches (by decide), next_of (by decide)⟩

/-- Step 3 of program P7 of spec/95_test_vectors.md: the pushed byte is HLT. -/
theorem witness_NextFetchSeesThePushedByte :
    (machine 6 [0x45#8, 0x00#8] [(.r0, 1), (.r7, 9)] []).Inv ∧
    (machine 6 [0x45#8, 0x00#8] [(.r0, 1), (.r7, 9)] []).Fetches 0x45#8 ∧
    (machine 6 [0x45#8, 0x00#8] [(.r0, 1), (.r7, 9)] []).reg .r7 - 1 = 8 ∧
    Reg.ofIndex ((machine 6 [0x45#8, 0x00#8] [(.r0, 1), (.r7, 9)] []).cell 7).toNat = some .r0 ∧
    ∃ t, step (machine 6 [0x45#8, 0x00#8] [(.r0, 1), (.r7, 9)] []) = .next t ∧
      (t.status == .running && nextIs (step t) (fun u => u.status == .halted)) = true :=
  ⟨⟨by decide, by decide⟩, ready_fetches (by decide), by decide, by decide, next_of (by decide)⟩

/-- Both clauses at their boundary: two bytes fit at 254 and not at 255; nothing fits below 0; no bytes fit at 256. -/
theorem witness_LoadBulkFollowsItsRule :
    (256 < (255 : Int) + ([1#8, 2#8].length : Int)) ∧ ((254 : Int) + ([1#8, 2#8].length : Int) ≤ 256) ∧
    ((256 : Int) + (([] : List Byte).length : Int) ≤ 256) ∧ State.reset.mem.wf = true := by decide

/-- The image of S1, and an image of 256 bytes. -/
theorem witness_LaunchStateFollowsItsRule :
    [0x82#8, 0x00#8, 0x08#8, 0x47#8, 0x00#8, 0x01#8].length ≤ 256 ∧ (List.replicate 256 (0x01#8)).length ≤ 256 :=
  ⟨by decide, by rw [List.length_replicate]⟩

/-- The state after one step of the image `01` is reachable. -/
theorem witness_ReachableStatesMeetTheInvariant : ∃ t, Reachable t ∧ (t.status == .halted) = true := by
  obtain ⟨t, ht, hh⟩ := next_of (show nextIs (step (State.place State.reset 0 [0x01#8]).invokeRun)
    (fun t => t.status == .halted) = true by decide)
  exact ⟨t, ⟨[0x01#8], _, 1, rfl, (runsTo_succ 0 _ t).2 ⟨t, ht, (runsTo_zero t t).2 rfl⟩⟩, hh⟩

end Sys2Proof.Tests
end

section
/-! The memory statements: R51 assembled from the two sides of the read law. -/
namespace Sys2Proof.Machine

/-- An address is outside the 256 cells (R50) exactly when it is below 0 or above 255, the two ways R51 names. -/
theorem not_validAddress_iff (a : Int) : ¬ validAddress a ↔ a < 0 ∨ 255 < a := by
  rw [not_and_or, not_le, not_le]

/-- Settles O6: `memRead_of_valid` inside 0 to 255, `memRead_of_invalid` outside. -/
theorem memReadFollowsItsRule : Obligations.MemReadFollowsItsRule := fun s a =>
  ⟨memRead_of_valid s a, fun hout => memRead_of_invalid s a ((not_validAddress_iff a).2 hout)⟩

end Sys2Proof.Machine
end

section
/-! The cycle statements: what the cycle answers for each byte it can fetch (R101 to R103), and what every handler does to
pc, ir, status and fault record (R104, R180), said once for all twelve; R102 and R104 are read off. -/
namespace Sys2Proof.Machine

/-! ### What one step answers -/

/-- R102: outside memory the fetch raises, before anything is written. -/
theorem cycle_of_invalid_pc (c : Config) (ex : Instr → State → Result) (s : State) (hr : s.status = .running)
    (hv : ¬ validAddress s.pc) : cycle c ex s = s.raise (.outOfBounds s.pc) := by
  simp only [cycle, hr, runCycle, memRead_of_invalid s s.pc hv, State.attempt_error]

/-- R103: a byte outside the dispatch table raises with that byte in ir. -/
theorem cycle_of_lookup_none {c : Config} {s : State} {b : Byte} (ex : Instr → State → Result) (hf : s.Fetches b)
    (hl : lookup c b = none) : cycle c ex s = (s.setIr b).raise (.unsupportedInstruction b) := by
  obtain ⟨hr, hv, rfl⟩ := hf
  simp only [cycle, hr, runCycle, memRead_of_valid s s.pc hv, State.attempt_ok, decodeWith, hl]

/-- R101: an opcode byte runs its handler's instruction, with that byte in ir. -/
theorem cycle_of_lookup_some {c : Config} {s : State} {b : Byte} {h : Handler} (ex : Instr → State → Result)
    (hf : s.Fetches b) (hl : lookup c b = some h) :
    cycle c ex s = ex (h.withOperands (operandBytes s)).1 (s.setIr b) := by
  obtain ⟨hr, hv, rfl⟩ := hf
  simp only [cycle, hr, runCycle, memRead_of_valid s s.pc hv, State.attempt_ok, decodeWith, hl]

/-- `exec` is the parametric core at the default parameters (R7). -/
theorem exec_eq_execWith : exec = execWith Config.default := by
  funext i s
  cases i <;> rfl

/-- `step` is the parametric core at the default parameters (R7). -/
theorem step_eq_stepWith (s : State) : step s = stepWith Config.default s := by
  rw [step, stepWith, exec_eq_execWith]

/-- The numbered steps that an opcode byte selects, with the operand readers of the instruction decoded there. -/
theorem stepWith_of_lookup {c : Config} {s : State} {b : Byte} {h : Handler} (hf : s.Fetches b)
    (hl : lookup c b = some h) :
    stepWith c s = handlerSteps c h (operandOne (h.withOperands (operandBytes s)).1)
      (operandTwo (h.withOperands (operandBytes s)).1) (s.setIr b) := by
  rw [stepWith, cycle_of_lookup_some _ hf hl, execWith, (decoded_operands s h hf.pcValid).1]

/-- The step at CALL's opcode byte: the handler of CALL with the operand at pc0 + 1. -/
theorem stepWith_of_call {c : Config} {s : State} (hc : c.valid = true) (hf : s.Fetches c.opcCall) :
    stepWith c s = callSteps c (callOperand (s.operandAt 1)) (s.setIr c.opcCall) := by
  have hdec : (Handler.call.withOperands (operandBytes s)).1 = .call (s.operandAt 1) :=
    congrArg Instr.call (List.head_eq_of_cons_eq (decoded_operands s .call hf.pcValid).2)
  rw [stepWith_of_lookup hf (lookup_opcode c .call hc), hdec]
  rfl

/-- The step at RET's opcode byte. -/
theorem stepWith_of_ret {c : Config} {s : State} (hc : c.valid = true) (hf : s.Fetches c.opcRet) :
    stepWith c s = retSteps c (s.setIr c.opcRet) :=
  stepWith_of_lookup hf (lookup_opcode c .ret hc)

/-! ### What every handler does to the control part of the state -/

/-- No numbered step is refused or stuck: every handler answers a next state (R100). -/
theorem handlerSteps_answers (c : Config) (h : Handler) (op1 op2 : OperandReader) (s : State) :
    ∃ t, handlerSteps c h op1 op2 s = .next t := by
  cases h with
  | hlt => exact ⟨_, rfl⟩
  | prn | ret => exact State.attempt_answers _ _ _ fun _ => State.attempt_answers _ _ _ fun _ => ⟨_, rfl⟩
  | ldi =>
    exact State.attempt_answers _ _ _ fun _ => State.attempt_answers _ _ _ fun _ =>
      State.attempt_answers _ _ _ fun _ => ⟨_, rfl⟩
  | push | pop | call =>
    exact State.attempt_answers _ _ _ fun _ => State.attempt_answers _ _ _ fun _ =>
      State.attempt_answers _ _ _ fun _ => State.attempt_answers _ _ _ fun _ => ⟨_, rfl⟩
  | add | sub | mul | div | mod =>
    exact State.attempt_answers _ _ _ fun _ => State.attempt_answers _ _ _ fun _ =>
      State.attempt_answers _ _ _ fun _ => State.attempt_answers _ _ _ fun _ =>
      State.attempt_answers _ _ _ fun _ => State.attempt_answers _ _ _ fun _ => ⟨_, rfl⟩

/-- Two states of one instruction that differ in registers, memory and output only: what numbered steps that have not yet
ended the instruction can have changed (R29, R30). -/
structure SameControl (s s' : State) : Prop where
  /-- the pc still holds pc0 -/
  pc : s'.pc = s.pc
  /-- ir still holds the opcode byte -/
  ir : s'.ir = s.ir
  /-- the status is as it was -/
  status : s'.status = s.status
  /-- the fault record is as it was -/
  fault : s'.fault = s.fault

/-- What a handler that completes does to pc, ir, status and fault record (R104, R122). -/
structure HandlerCompletes (h : Handler) (s t : State) : Prop where
  /-- ir still holds the opcode byte -/
  ir : t.ir = s.ir
  /-- no fault was recorded -/
  fault : t.fault = s.fault
  /-- only HLT changes the status -/
  status : t.status = if h = .hlt then .halted else s.status
  /-- the generic advance, but for CALL and RET -/
  pc : h ≠ .call → h ≠ .ret → t.pc = s.nextPc

/-- Everything a handler can do to the control part: it raises in a state that still has that of `s`, or completes. -/
theorem handlerSteps_eq_next {c : Config} {h : Handler} {op1 op2 : OperandReader} {s t : State}
    (hs : handlerSteps c h op1 op2 s = .next t) :
    (∃ s' e, s'.raise e = .next t ∧ SameControl s s') ∨ HandlerCompletes h s t := by
  have same : SameControl s s := ⟨rfl, rfl, rfl, rfl⟩
  cases h with
  | ldi =>
    obtain ⟨e, he⟩ | ⟨_, _, _, _, _, _, _, rfl⟩ := ldiSteps_eq_next hs
    · exact .inl ⟨s, e, he, same⟩
    · exact .inr ⟨rfl, rfl, rfl, fun _ _ => rfl⟩
  | prn =>
    obtain ⟨e, he⟩ | ⟨_, _, _, _, rfl⟩ := prnSteps_eq_next hs
    · exact .inl ⟨s, e, he, same⟩
    · exact .inr ⟨rfl, rfl, rfl, fun _ _ => rfl⟩
  | hlt =>
    cases (advance_eq_next_iff _ _).1 hs
    exact .inr ⟨rfl, rfl, rfl, fun _ _ => rfl⟩
  | add | sub | mul | div | mod =>
    obtain ⟨e, he⟩ | ⟨_, _, _, _, _, _, _, _, _, _, rfl⟩ := aluSteps_eq_next hs
    · exact .inl ⟨s, e, he, same⟩
    · exact .inr ⟨rfl, rfl, rfl, fun _ _ => rfl⟩
  | push =>
    obtain ⟨_, he⟩ | ⟨_, e, he⟩ | ⟨_, _, _, _, _, _, _, _, rfl⟩ := pushSteps_eq_next hs
    · exact .inl ⟨s, _, he, same⟩
    · exact .inl ⟨_, e, he, ⟨rfl, rfl, rfl, rfl⟩⟩
    · exact .inr ⟨rfl, rfl, rfl, fun _ _ => rfl⟩
  | pop =>
    obtain ⟨e, he⟩ | ⟨_, _, _, _, _, _, ⟨_, rfl⟩ | ⟨_, he⟩⟩ := popSteps_eq_next hs
    · exact .inl ⟨s, e, he, same⟩
    · exact .inr ⟨rfl, rfl, rfl, fun _ _ => rfl⟩
    · exact .inl ⟨_, _, he, ⟨rfl, rfl, rfl, rfl⟩⟩
  | call =>
    obtain ⟨_, he⟩ | ⟨_, e, he⟩ | ⟨_, _, _, _, ⟨e, he⟩ | ⟨_, _, _, _, rfl⟩⟩ := callSteps_eq_next hs
    · exact .inl ⟨s, _, he, same⟩
    · exact .inl ⟨_, e, he, ⟨rfl, rfl, rfl, rfl⟩⟩
    · exact .inl ⟨_, e, he, ⟨rfl, rfl, rfl, rfl⟩⟩
    · exact .inr ⟨rfl, rfl, rfl, fun hn _ => absurd rfl hn⟩
  | ret =>
    obtain ⟨e, he⟩ | ⟨_, _, rfl⟩ := retSteps_eq_next hs
    · exact .inl ⟨s, e, he, same⟩
    · exact .inr ⟨rfl, rfl, rfl, fun _ hn => absurd rfl hn⟩

/-- No handler writes ir, faulting or not (R30). -/
theorem handlerSteps_ir {c : Config} {h : Handler} {op1 op2 : OperandReader} {s t : State}
    (hs : handlerSteps c h op1 op2 s = .next t) : t.ir = s.ir := by
  obtain ⟨s', e, he, hsame⟩ | hdone := handlerSteps_eq_next hs
  · rw [(State.raise_eq_next_iff s' t e).1 he]
    exact hsame.ir
  · exact hdone.ir

/-- A step that raised is in the Faulted state (R180). -/
theorem status_of_raise {s t : State} {e : FaultCause} (h : s.raise e = .next t) : t.status = .faulted := by
  rw [(State.raise_eq_next_iff s t e).1 h]

/-- A step without a fault ran a handler of the dispatch table to completion. -/
theorem stepWith_completes {c : Config} {s t : State} {b : Byte} (hf : s.Fetches b) (hs : stepWith c s = .next t)
    (ht : t.status ≠ .faulted) : ∃ h, lookup c b = some h ∧ HandlerCompletes h (s.setIr b) t := by
  cases hl : lookup c b with
  | none =>
    rw [stepWith, cycle_of_lookup_none _ hf hl] at hs
    exact absurd (status_of_raise hs) ht
  | some h =>
    rw [stepWith_of_lookup hf hl] at hs
    obtain ⟨_, _, he, _⟩ | hdone := handlerSteps_eq_next hs
    · exact absurd (status_of_raise he) ht
    · exact ⟨h, rfl, hdone⟩

/-! ### R102: fetch -/

/-- R102 inside memory, for any parameters: the step answers a state whose ir holds the byte fetched. -/
theorem stepWith_ir {s : State} {b : Byte} (c : Config) (hf : s.Fetches b) :
    ∃ t, stepWith c s = .next t ∧ t.ir = b := by
  cases hl : lookup c b with
  | none => exact ⟨_, cycle_of_lookup_none _ hf hl, rfl⟩
  | some h =>
    rw [stepWith_of_lookup hf hl]
    obtain ⟨t, ht⟩ := handlerSteps_answers c h (operandOne (h.withOperands (operandBytes s)).1)
      (operandTwo (h.withOperands (operandBytes s)).1) (s.setIr b)
    exact ⟨t, ht, handlerSteps_ir ht⟩

/-- Settles O12: the fetch fault by `cycle_of_invalid_pc`, the byte in ir by `stepWith_ir`. -/
theorem fetchFollowsItsRule : Obligations.FetchFollowsItsRule := fun s hr =>
  ⟨fun hout => cycle_of_invalid_pc _ _ s hr ((not_validAddress_iff _).2 hout), fun hin => by
    rw [step_eq_stepWith]
    exact stepWith_ir Config.default ⟨hr, hin, rfl⟩⟩

/-! ### R104: the advance, and the targets of CALL and RET -/

/-- The opcode values are pairwise distinct (R85), so a byte among the opcodes of some handlers is dispatched to one of
them. -/
theorem mem_of_opcode_mem {c : Config} {b : Byte} {h : Handler} (hc : c.valid = true) (hl : lookup c b = some h)
    {hs : List Handler} (hb : b ∈ hs.map (Handler.opcode c)) : h ∈ hs := by
  obtain ⟨g, hg, rfl⟩ := List.mem_map.1 hb
  rw [lookup_opcode c g hc] at hl
  cases hl
  exact hg

/-- The advance of a completed handler among those of one operand count `n`, none of them CALL or RET (R81, R104). -/
theorem HandlerCompletes.pc_of_arity {c : Config} {s t : State} {b : Byte} {h : Handler} (hc : c.valid = true)
    (hl : lookup c b = some h) (hdone : HandlerCompletes h (s.setIr b) t) {n : Nat} (hs : List Handler)
    (hn : ∀ g ∈ hs, g.arity = n ∧ g ≠ .call ∧ g ≠ .ret) (hb : b ∈ hs.map (Handler.opcode c)) :
    t.pc = s.pc + ((n + 1 : Nat) : Int) := by
  obtain ⟨hnops, hcall, hret⟩ := hn h (mem_of_opcode_mem hc hl hb)
  rw [hdone.pc hcall hret, State.setIr_nextPc, ← opcode_of_lookup c b h hl, nops_opcode c h hc, hnops, Nat.cast_succ,
    add_assoc]

theorem State.operandAt_of_valid {s : State} {k : Nat} (hv : validAddress (s.pc + (k : Int))) :
    s.operandAt k = .byte (s.cell (s.pc + (k : Int))) :=
  if_pos hv

theorem State.operandAt_of_invalid {s : State} {k : Nat} (hv : ¬ validAddress (s.pc + (k : Int))) :
    s.operandAt k = .beyond :=
  if_neg hv

/-- After its store CALL's reader sees what stands in memory at pc0 + 1, also where the store landed there (R160, R83). -/
theorem callOperand_after_store (s : State) (a : Int) (w : Byte) (ha : validAddress a) :
    callOperand (s.operandAt 1) ((s.setReg .r7 a).setCell a w) = memOperand 1 ((s.setReg .r7 a).setCell a w) := by
  by_cases hhit : a = s.pc + 1
  · exact callOperand_hit _ _ (by simpa using hhit)
  · rw [callOperand_missed _ _ (by simpa using hhit)]
    by_cases hv : validAddress (s.pc + ((1 : Nat) : Int))
    · have hcell := State.cell_setCell_other (s.setReg .r7 a) a _ w ha.1 hv.1 (Ne.symm hhit)
      rw [State.operandAt_of_valid hv, fetchedOperand_byte]
      exact (congrArg Except.ok hcell.symm).trans (memRead_of_valid _ _ hv).symm
    · rw [State.operandAt_of_invalid hv]
      exact (memRead_of_invalid _ _ hv).symm

/-- Where a CALL that completes goes (R160): to the integer in the register that the operand byte names now. -/
theorem call_target {c : Config} {s t : State} (hc : c.valid = true) (hf : s.Fetches c.opcCall)
    (hs : stepWith c s = .next t) (ht : t.status ≠ .faulted) :
    ∃ R, Reg.ofIndex (t.cell (s.pc + 1)).toNat = some R ∧ t.pc = t.reg R := by
  rw [stepWith_of_call hc hf] at hs
  obtain ⟨_, he⟩ | ⟨_, _, he⟩ | ⟨_, ha, _, _, ⟨_, he⟩ | ⟨r, R, hop, hR, rfl⟩⟩ := callSteps_eq_next hs
  · exact absurd (status_of_raise he) ht
  · exact absurd (status_of_raise he) ht
  · exact absurd (status_of_raise he) ht
  · have hop' := (callOperand_after_store (s.setIr c.opcCall) _ _ ha).symm.trans hop
    obtain ⟨_, rfl⟩ := memRead_eq_ok hop'
    exact ⟨R, hR, rfl⟩

/-- Where a RET that completes goes (R161): to the byte that stood on top of the stack. -/
theorem ret_target {c : Config} {s t : State} (hc : c.valid = true) (hf : s.Fetches c.opcRet)
    (hs : stepWith c s = .next t) (ht : t.status ≠ .faulted) : t.pc = ((s.cell (s.reg .r7)).toNat : Int) := by
  rw [stepWith_of_ret hc hf] at hs
  obtain ⟨_, he⟩ | ⟨_, _, rfl⟩ := retSteps_eq_next hs
  · exact absurd (status_of_raise he) ht
  · rfl

/-- Settles O13: the handler that completed (`stepWith_completes`) fixes the advance; `call_target` and `ret_target` are
the two exceptions. -/
theorem genericAdvanceFollowsItsRule : Obligations.GenericAdvanceFollowsItsRule := by
  intro c s t b hc _ hf hs ht
  obtain ⟨h, hl, hdone⟩ := stepWith_completes hf hs ht
  have hop : h.opcode c = b := opcode_of_lookup c b h hl
  refine ⟨fun hcall hret => hdone.pc ?_ ?_, ?_, ?_, ?_, ?_, ?_⟩
  · rintro rfl
    exact hcall hop.symm
  · rintro rfl
    exact hret hop.symm
  · exact hdone.pc_of_arity hc hl [.ldi, .add, .sub, .mul, .div, .mod] (n := 2) (by decide)
  · exact hdone.pc_of_arity hc hl [.prn, .push, .pop] (n := 1) (by decide)
  · exact fun hb => hdone.pc_of_arity hc hl [.hlt] (n := 0) (by decide) (List.mem_singleton.2 hb)
  · rintro rfl
    exact call_target hc hf hs ht
  · rintro rfl
    exact ret_target hc hf hs ht

end Sys2Proof.Machine
end

section
/-! HLT as a whole step (R122), for any admitted parameters, and the other direction: a step that ends in Halted ran HLT. -/
namespace Sys2Proof.Machine

/-- R100: a step is taken only while Running. -/
theorem running_of_cycle_eq_next {c : Config} {ex : Instr → State → Result} {s t : State}
    (hs : cycle c ex s = .next t) : s.status = .running := by
  cases hst : s.status with
  | running => rfl
  | halted | faulted =>
    rw [cycle, hst] at hs
    cases hs

/-- A step without a fault fetched the byte at the pc (R102). -/
theorem fetches_of_stepWith_eq_next {c : Config} {s t : State} (hs : stepWith c s = .next t)
    (ht : t.status ≠ .faulted) : s.Fetches (s.cell s.pc) := by
  have hr : s.status = .running := running_of_cycle_eq_next hs
  by_cases hv : validAddress s.pc
  · exact ⟨hr, hv, rfl⟩
  · rw [stepWith, cycle_of_invalid_pc _ _ s hr hv] at hs
    exact absurd (status_of_raise hs) ht

/-- The numbered steps of HLT answer one state, whatever the state before (R122). -/
theorem hltSteps_eq (s : State) : hltSteps s = .next ((s.setStatus .halted).setPc s.nextPc) := rfl

/-- The step at HLT's opcode byte, whose operand count is 0, at every address (R122). -/
theorem stepWith_of_hlt {c : Config} {s : State} (hc : c.valid = true) (hf : s.Fetches opcHlt) :
    stepWith c s = .next { s with ir := opcHlt, status := .halted, pc := s.pc + 1 } := by
  have hnops : nops opcHlt = 0 := nops_opcode c .hlt hc
  have hnext : (s.setIr opcHlt).nextPc = s.pc + 1 := by
    rw [State.setIr_nextPc, hnops, Nat.cast_zero, add_zero]
  calc stepWith c s
      = hltSteps (s.setIr opcHlt) := stepWith_of_lookup hf (lookup_opcode c .hlt hc)
    _ = .next (((s.setIr opcHlt).setStatus .halted).setPc (s.pc + 1)) := by rw [hltSteps_eq, hnext]

/-- HLT is the only instruction that ends a run normally (R122), for any parameters: the handler that completed kept the
status Running unless it is HLT's. -/
theorem fetches_hlt_of_stepWith_halted {c : Config} {s t : State} (hs : stepWith c s = .next t)
    (ht : t.status = .halted) : s.Fetches opcHlt := by
  have hnf : t.status ≠ .faulted := by simp [ht]
  have hf := fetches_of_stepWith_eq_next hs hnf
  obtain ⟨h, hl, hdone⟩ := stepWith_completes hf hs hnf
  have hh : h = .hlt := by
    by_contra hne
    simp [hdone.status, hne, hf.running] at ht
  subst hh
  have hop : opcHlt = s.cell s.pc := opcode_of_lookup c _ .hlt hl
  rwa [← hop] at hf

/-- Settles O35: `stepWith_of_hlt`, its converse `fetches_hlt_of_stepWith_halted`, and that only a Running core steps. -/
theorem hltStepFollowsItsRule : Obligations.HltStepFollowsItsRule := by
  refine ⟨fun s hf => ?_, fun s t hs ht => ?_, fun s t hst hs => ?_⟩
  · rw [step_eq_stepWith]
    exact stepWith_of_hlt Config.default_valid hf
  · rw [step_eq_stepWith] at hs
    exact fetches_hlt_of_stepWith_halted hs ht
  · exact absurd (hst.symm.trans (running_of_cycle_eq_next hs)) (by decide)

end Sys2Proof.Machine
end

section
/-! The causes of faults: a small rule for each numbered step says which cause a result can record, for any predicate on
causes; with it, which causes a handler records (R171 to R174, R176), and from those R173 and R174. -/
namespace Sys2Proof.Machine

/-! ### Which causes a result records -/

/-- Every fault record that stands in the state answered has a cause that meets `P`. -/
def Records (P : FaultCause → Prop) (r : Result) : Prop :=
  ∀ t f, r = .next t → t.fault = some f → P f.cause

theorem Records.mono {P Q : FaultCause → Prop} {r : Result} (h : Records P r) (hPQ : ∀ e, P e → Q e) : Records Q r :=
  fun t f hr hf => hPQ f.cause (h t f hr hf)

/-- Fault entry records the cause raised, whatever record stood before (R180). -/
theorem cause_of_raise {s t : State} {e : FaultCause} {f : FaultRecord} (hr : s.raise e = .next t)
    (hf : t.fault = some f) : f.cause = e := by
  rw [(State.raise_eq_next_iff s t e).1 hr] at hf
  cases hf
  rfl

theorem records_raise {P : FaultCause → Prop} {e : FaultCause} (s : State) (he : P e) : Records P (s.raise e) :=
  fun _ _ hr hf => cause_of_raise hr hf ▸ he

/-- A state without a fault record has none to account for. -/
theorem records_next {P : FaultCause → Prop} {s : State} (hs : s.fault = none) : Records P (.next s) := by
  intro t f hr hf
  cases hr
  rw [hs] at hf
  cases hf

/-- A numbered step records what it raises itself, or what the steps after it record (R10, R180). -/
theorem records_attempt {P : FaultCause → Prop} {α : Type} {s : State} {r : Except FaultCause α} {k : α → Result}
    (he : ∀ e, r = .error e → P e) (hk : ∀ a, r = .ok a → Records P (k a)) : Records P (s.attempt r k) := by
  cases r with
  | error e => exact records_raise s (he e rfl)
  | ok a => exact hk a rfl

/-! ### The causes that the accesses to registers and memory raise -/

/-- The causes of R171, R172 and R176: those that an access to a register or to memory raises. -/
inductive AccessCause : FaultCause → Prop where
  /-- an address that names no cell (R171) -/
  | outOfBounds (a : Int) : AccessCause (.outOfBounds a)
  /-- an index that names no register (R172) -/
  | invalidRegister (i : Byte) : AccessCause (.invalidRegister i)
  /-- a value that does not fit where it is written (R176) -/
  | valueOutOfRange (v : Int) : AccessCause (.valueOutOfRange v)

theorem accessCause_of_readReg {s : State} {i : Byte} {e : FaultCause} (h : readReg s i = .error e) :
    AccessCause e := by
  obtain ⟨_, _, hr⟩ | ⟨_, hr⟩ := readReg_cases s i <;> cases hr.symm.trans h
  exact .invalidRegister i

theorem accessCause_of_writeSlot {c : Config} {s : State} {r : Reg} {v : Int} {e : FaultCause}
    (h : writeSlot c s r v = .error e) : AccessCause e := by
  obtain ⟨_, hr⟩ | ⟨_, hr⟩ := writeSlot_cases c s r v <;> cases hr.symm.trans h
  exact .valueOutOfRange v

theorem accessCause_of_writeReg {c : Config} {s : State} {i : Byte} {v : Int} {e : FaultCause}
    (h : writeReg c s i v = .error e) : AccessCause e := by
  obtain ⟨_, _, _, hr⟩ | ⟨_, _, _, hr⟩ | ⟨_, hr⟩ := writeReg_cases c s i v <;> cases hr.symm.trans h
  · exact .valueOutOfRange v
  · exact .invalidRegister i

theorem accessCause_of_memRead {s : State} {a : Int} {e : FaultCause} (h : memRead s a = .error e) :
    AccessCause e := by
  obtain ⟨_, hr⟩ | ⟨_, hr⟩ := memRead_cases s a <;> cases hr.symm.trans h
  exact .outOfBounds a

theorem accessCause_of_memWrite {s : State} {a v : Int} {e : FaultCause} (h : memWrite s a v = .error e) :
    AccessCause e := by
  obtain ⟨_, _, _, hr⟩ | ⟨_, _, hr⟩ | ⟨_, hr⟩ := memWrite_cases s a v <;> cases hr.symm.trans h
  · exact .valueOutOfRange v
  · exact .outOfBounds a

/-- A way to obtain an operand byte that raises no other cause than an access does. -/
def ReadsByAccess (op : OperandReader) : Prop :=
  ∀ s e, op s = .error e → AccessCause e

theorem memOperand_readsByAccess (k : Nat) : ReadsByAccess (memOperand k) :=
  fun _ _ h => accessCause_of_memRead h

theorem fetchedOperand_readsByAccess (o : Operand) (k : Nat) : ReadsByAccess (fetchedOperand o k) := by
  intro s e h
  cases o with
  | byte b => cases h
  | beyond =>
    cases h
    exact .outOfBounds _

theorem callOperand_readsByAccess (o : Operand) : ReadsByAccess (callOperand o) := by
  intro s e h
  by_cases hhit : s.reg .r7 = s.pc + 1
  · rw [callOperand_hit o s hhit] at h
    exact memOperand_readsByAccess 1 s e h
  · rw [callOperand_missed o s hhit] at h
    exact fetchedOperand_readsByAccess o 1 s e h

theorem operandOne_readsByAccess (i : Instr) : ReadsByAccess (operandOne i) := by
  cases i with
  | ldi | prn | add | sub | mul | div | mod | push | pop => exact fetchedOperand_readsByAccess _ 1
  | call => exact callOperand_readsByAccess _
  | hlt | ret => exact memOperand_readsByAccess 1

theorem operandTwo_readsByAccess (i : Instr) : ReadsByAccess (operandTwo i) := by
  cases i with
  | ldi | add | sub | mul | div | mod => exact fetchedOperand_readsByAccess _ 2
  | prn | push | pop | call | hlt | ret => exact memOperand_readsByAccess 2

/-! ### The causes that a handler records -/

section
variable {c : Config} {op1 op2 : OperandReader} {s : State}

theorem ldiSteps_records (hs : s.fault = none) (h1 : ReadsByAccess op1) (h2 : ReadsByAccess op2) :
    Records AccessCause (ldiSteps c op1 op2 s) := by
  refine records_attempt (h1 s) fun r _ => records_attempt (h2 s) fun imm _ =>
    records_attempt (fun _ => accessCause_of_writeReg) fun s' hw => ?_
  obtain ⟨_, _, _, rfl⟩ := writeReg_eq_ok hw
  exact records_next hs

theorem prnSteps_records (hs : s.fault = none) (h1 : ReadsByAccess op1) : Records AccessCause (prnSteps op1 s) :=
  records_attempt (h1 s) fun _ _ => records_attempt (fun _ => accessCause_of_readReg) fun _ _ => records_next hs

theorem pushSteps_records (hs : s.fault = none) (h1 : ReadsByAccess op1) : Records AccessCause (pushSteps c op1 s) := by
  refine records_attempt (fun _ => accessCause_of_writeSlot) fun s1 hw => records_attempt (h1 s1) fun r _ =>
    records_attempt (fun _ => accessCause_of_readReg) fun v _ =>
    records_attempt (fun _ => accessCause_of_memWrite) fun s2 hm => ?_
  obtain ⟨_, rfl⟩ := writeSlot_eq_ok hw
  obtain ⟨_, _, _, rfl⟩ := memWrite_eq_ok hm
  exact records_next hs

theorem popSteps_records (hs : s.fault = none) (h1 : ReadsByAccess op1) : Records AccessCause (popSteps c op1 s) := by
  refine records_attempt (fun _ => accessCause_of_memRead) fun v _ => records_attempt (h1 s) fun r _ =>
    records_attempt (fun _ => accessCause_of_writeReg) fun s1 hr =>
    records_attempt (fun _ => accessCause_of_writeSlot) fun s2 hw => ?_
  obtain ⟨_, _, _, rfl⟩ := writeReg_eq_ok hr
  obtain ⟨_, rfl⟩ := writeSlot_eq_ok hw
  exact records_next hs

theorem callSteps_records (hs : s.fault = none) (h1 : ReadsByAccess op1) : Records AccessCause (callSteps c op1 s) := by
  refine records_attempt (fun _ => accessCause_of_writeSlot) fun s1 hw =>
    records_attempt (fun _ => accessCause_of_memWrite) fun s2 hm => records_attempt (h1 s2) fun r _ =>
    records_attempt (fun _ => accessCause_of_readReg) fun v _ => ?_
  obtain ⟨_, rfl⟩ := writeSlot_eq_ok hw
  obtain ⟨_, _, _, rfl⟩ := memWrite_eq_ok hm
  exact records_next hs

theorem retSteps_records (hs : s.fault = none) : Records AccessCause (retSteps c s) := by
  refine records_attempt (fun _ => accessCause_of_memRead) fun v _ =>
    records_attempt (fun _ => accessCause_of_writeSlot) fun s1 hw => ?_
  obtain ⟨_, rfl⟩ := writeSlot_eq_ok hw
  exact records_next hs

end

/-- The cause of R174: the second operand byte, which names a register that holds 0. -/
def DivisorCause (op2 : OperandReader) (s : State) (e : FaultCause) : Prop :=
  ∃ rb B, e = .divisionByZero rb ∧ op2 s = .ok rb ∧ Reg.ofIndex rb.toNat = some B ∧ s.reg B = 0

/-- Only the divisor check (R130 step 5) adds a cause to those of the accesses, and only where the operation divides. -/
theorem aluSteps_records {c : Config} {op : AluOp} {op1 op2 : OperandReader} {s : State} (hs : s.fault = none)
    (h1 : ReadsByAccess op1) (h2 : ReadsByAccess op2) :
    Records (fun e => AccessCause e ∨ (op.divides = true ∧ DivisorCause op2 s e)) (aluSteps c op op1 op2 s) := by
  refine records_attempt (fun e h => .inl (h1 s e h)) fun ra _ =>
    records_attempt (fun e h => .inl (h2 s e h)) fun rb hrb =>
    records_attempt (fun _ h => .inl (accessCause_of_readReg h)) fun a _ =>
    records_attempt (fun _ h => .inl (accessCause_of_readReg h)) fun b hb =>
    records_attempt (fun e hd => ?_) fun _ _ =>
    records_attempt (fun _ h => .inl (accessCause_of_writeReg h)) fun s' hw => ?_
  · obtain ⟨B, hB, rfl⟩ := readReg_eq_ok hb
    obtain ⟨hdiv, hzero, hr⟩ | ⟨_, hr⟩ := checkDivisor_cases op rb (s.reg B) <;> cases hr.symm.trans hd
    exact .inr ⟨hdiv, rb, B, rfl, hrb, hB, hzero⟩
  · obtain ⟨_, _, _, rfl⟩ := writeReg_eq_ok hw
    exact records_next hs

/-- Which causes a handler records (R171 to R177): those of its accesses, and in DIV and MOD the divisor check's. -/
theorem handlerSteps_records {c : Config} (h : Handler) {op1 op2 : OperandReader} {s : State} (hs : s.fault = none)
    (h1 : ReadsByAccess op1) (h2 : ReadsByAccess op2) :
    Records (fun e => AccessCause e ∨ ((h = .div ∨ h = .mod) ∧ DivisorCause op2 s e))
      (handlerSteps c h op1 op2 s) := by
  cases h with
  | ldi => exact (ldiSteps_records hs h1 h2).mono fun _ => .inl
  | prn => exact (prnSteps_records hs h1).mono fun _ => .inl
  | hlt => exact records_next hs
  | add | sub | mul =>
    exact (aluSteps_records hs h1 h2).mono fun _ => Or.imp_right fun hd => absurd hd.1 Bool.false_ne_true
  | div => exact (aluSteps_records hs h1 h2).mono fun _ => Or.imp_right fun hd => ⟨.inl rfl, hd.2⟩
  | mod => exact (aluSteps_records hs h1 h2).mono fun _ => Or.imp_right fun hd => ⟨.inr rfl, hd.2⟩
  | push => exact (pushSteps_records hs h1).mono fun _ => .inl
  | pop => exact (popSteps_records hs h1).mono fun _ => .inl
  | call => exact (callSteps_records hs h1).mono fun _ => .inl
  | ret => exact (retSteps_records hs).mono fun _ => .inl

/-- The same for the step at an opcode byte. -/
theorem stepWith_records {c : Config} {s : State} {b : Byte} {h : Handler} (hf : s.Fetches b)
    (hl : lookup c b = some h) (hs : s.fault = none) :
    Records (fun e => AccessCause e ∨ ((h = .div ∨ h = .mod) ∧
      DivisorCause (operandTwo (h.withOperands (operandBytes s)).1) (s.setIr b) e)) (stepWith c s) := by
  rw [stepWith_of_lookup hf hl]
  exact handlerSteps_records h hs (operandOne_readsByAccess _) (operandTwo_readsByAccess _)

/-! ### R173: UnsupportedInstruction -/

/-- The dispatch table misses exactly the bytes that are no handler's opcode value (R103). -/
theorem lookup_eq_none_iff (c : Config) (b : Byte) : lookup c b = none ↔ ∀ h : Handler, h.opcode c ≠ b := by
  have hall : ∀ h : Handler, h ∈ Handler.all := by
    intro h
    cases h <;> decide
  simp [lookup, List.find?_eq_none, hall]

/-- Settles O36: `cycle_of_lookup_none` outside the table; inside it the causes of `stepWith_records` are others. -/
theorem unsupportedInstructionFollowsItsRule : Obligations.UnsupportedInstructionFollowsItsRule := by
  intro c s b hf
  refine ⟨fun hno => ⟨_, cycle_of_lookup_none _ hf ((lookup_eq_none_iff c b).2 hno), rfl, fun u hu => ?_⟩, ?_⟩
  · cases running_of_cycle_eq_next hu
  · rintro ⟨g, hg⟩ hnone t r n hs hr hcause
    cases hl : lookup c b with
    | none => exact (lookup_eq_none_iff c b).1 hl g hg
    | some h =>
      have hrec := stepWith_records hf hl hnone t r hs hr
      rw [hcause] at hrec
      obtain ⟨⟨⟩⟩ | ⟨_, _, _, ⟨⟩, _⟩ := hrec

/-! ### R174: DivisionByZero -/

/-- R130 step 5: with both operands obtained and both registers named, the operation divides by 0 and nothing is
written. -/
theorem aluSteps_of_divisor_zero {c : Config} {op : AluOp} {op1 op2 : OperandReader} {s : State} {ra rb : Byte}
    {A B : Reg} (hdiv : op.divides = true) (h1 : op1 s = .ok ra) (h2 : op2 s = .ok rb)
    (hA : Reg.ofIndex ra.toNat = some A) (hB : Reg.ofIndex rb.toNat = some B) (hzero : s.reg B = 0) :
    aluSteps c op op1 op2 s = .next (s.faultedBy (.divisionByZero rb)) := by
  simp only [aluSteps, h1, h2, State.attempt_ok, readReg_of_index s ra A hA, readReg_of_index s rb B hB, checkDivisor,
    hdiv, hzero, and_self, if_true, State.attempt_error, State.raise_eq]

/-- An instruction of two operand bytes reads, after its fetch, what stands in memory at pc0 + 1 and pc0 + 2 (R83). -/
theorem operands_of_arity_two {s : State} {h : Handler} (b : Byte) (hv : validAddress s.pc) (ha : h.arity = 2) :
    operandOne (h.withOperands (operandBytes s)).1 (s.setIr b) = memRead s (s.pc + 1) ∧
      operandTwo (h.withOperands (operandBytes s)).1 (s.setIr b) = memRead s (s.pc + 2) := by
  obtain ⟨_, hops⟩ := decoded_operands s h hv
  have hmem : ∀ k, fetchedOperand (s.operandAt k) k (s.setIr b) = memRead s (s.pc + (k : Int)) :=
    fun k => fetchedOperand_operandAt s (s.setIr b) k rfl rfl
  cases h with
  | ldi | add | sub | mul | div | mod =>
    obtain ⟨hone, htwo, -⟩ : _ = _ ∧ _ = _ ∧ _ := by
      simpa only [Handler.withOperands, takeTwo, Instr.operands, Handler.arity, List.take, List.cons.injEq] using hops
    simp only [Handler.withOperands, takeTwo, operandOne, operandTwo, hone, htwo, hmem, Nat.cast_one, Nat.cast_ofNat,
      and_self]
  | prn | hlt | push | pop | call | ret => cases ha

theorem arity_of_div_or_mod {h : Handler} (hh : h = .div ∨ h = .mod) : h.arity = 2 := by
  obtain rfl | rfl := hh <;> rfl

/-- R174 at DIV or MOD: the step enters DivisionByZero in the state after the fetch. -/
theorem stepWith_of_divisor_zero {c : Config} {s : State} {b : Byte} {A B : Reg} {h : Handler} (hf : s.Fetches b)
    (hl : lookup c b = some h) (hh : h = .div ∨ h = .mod) (hpc : s.pc ≤ 253)
    (hA : Reg.ofIndex (s.cell (s.pc + 1)).toNat = some A) (hB : Reg.ofIndex (s.cell (s.pc + 2)).toNat = some B)
    (hzero : s.reg B = 0) :
    stepWith c s = .next ((s.setIr b).faultedBy (.divisionByZero (s.cell (s.pc + 2)))) := by
  have hv := hf.pcValid
  have h1 : memRead s (s.pc + 1) = .ok (s.cell (s.pc + 1)) := memRead_of_valid s _ ⟨by omega, by omega⟩
  have h2 : memRead s (s.pc + 2) = .ok (s.cell (s.pc + 2)) := memRead_of_valid s _ ⟨by omega, by omega⟩
  rw [stepWith_of_lookup hf hl]
  obtain ⟨hone, htwo⟩ := operands_of_arity_two b hv (arity_of_div_or_mod hh)
  obtain rfl | rfl := hh
  · exact aluSteps_of_divisor_zero (op := .div) rfl (hone.trans h1) (htwo.trans h2) hA hB hzero
  · exact aluSteps_of_divisor_zero (op := .mod) rfl (hone.trans h1) (htwo.trans h2) hA hB hzero

/-- The converse: DivisionByZero was recorded by DIV or MOD, and the index by the byte at pc0 + 2. -/
theorem divisor_zero_of_stepWith {c : Config} {s t : State} {r : FaultRecord} {rb : Byte} (hrun : s.status = .running)
    (hnone : s.fault = none) (hs : stepWith c s = .next t) (hr : t.fault = some r)
    (hcause : r.cause = .divisionByZero rb) :
    (s.Fetches c.opcDiv ∨ s.Fetches c.opcMod) ∧ s.cell (s.pc + 2) = rb ∧
      ∃ B, Reg.ofIndex rb.toNat = some B ∧ s.reg B = 0 := by
  have hv : validAddress s.pc := by
    by_contra hout
    rw [stepWith, cycle_of_invalid_pc _ _ s hrun hout] at hs
    cases hcause.symm.trans (cause_of_raise hs hr)
  have hf : s.Fetches (s.cell s.pc) := ⟨hrun, hv, rfl⟩
  cases hl : lookup c (s.cell s.pc) with
  | none =>
    rw [stepWith, cycle_of_lookup_none _ hf hl] at hs
    cases hcause.symm.trans (cause_of_raise hs hr)
  | some h =>
    have hop : h.opcode c = s.cell s.pc := opcode_of_lookup c _ h hl
    have hrec := stepWith_records hf hl hnone t r hs hr
    rw [hcause] at hrec
    obtain ⟨⟨⟩⟩ | ⟨hh, _, B, ⟨⟩, hread, hB, hzero⟩ := hrec
    rw [← hop] at hf
    obtain ⟨_, htwo⟩ := operands_of_arity_two (s.cell s.pc) hv (arity_of_div_or_mod hh)
    obtain ⟨_, hrb⟩ := memRead_eq_ok (htwo.symm.trans hread)
    refine ⟨?_, hrb.symm, B, hB, hzero⟩
    obtain rfl | rfl := hh
    · exact .inl hf
    · exact .inr hf

/-- Settles O37: `stepWith_of_divisor_zero` and its converse `divisor_zero_of_stepWith`. -/
theorem divisionByZeroFollowsItsRule : Obligations.DivisionByZeroFollowsItsRule := by
  refine ⟨?_, fun c s t r rb => divisor_zero_of_stepWith⟩
  rintro c s b _ _ A B hc hf hb hpc rfl rfl hA hB hzero
  obtain ⟨h, hl, hh⟩ : ∃ h, lookup c b = some h ∧ (h = .div ∨ h = .mod) := by
    obtain rfl | rfl := hb
    · exact ⟨.div, lookup_opcode c .div hc, .inl rfl⟩
    · exact ⟨.mod, lookup_opcode c .mod hc, .inr rfl⟩
  exact ⟨_, stepWith_of_divisor_zero hf hl hh hpc hA hB hzero, rfl, fun _ => rfl⟩

end Sys2Proof.Machine
end

section
/-! The encoding statements (30_encoding.md R80 to R87): what an instruction's operand bytes spell, and that taking
operands reads exactly that back; the opcode byte is `lookup_opcode` and `opcode_of_lookup`. -/
namespace Sys2Proof

/-! ### Taking the operand bytes that an instruction spells -/

/-- A one-byte format reads back the operand that was spelled; past the end of memory nothing follows it. -/
theorem takeOne_bytes (mk : Operand → Instr) (a : Operand) (rest : List Byte)
    (hend : [a].all (· != .beyond) = true ∨ rest = []) :
    takeOne mk ([a].flatMap Operand.bytes ++ rest) = (mk a, rest) := by
  cases a with
  | byte b => rfl
  | beyond =>
    obtain h | rfl := hend
    · cases h
    · rfl

/-- A two-byte format reads back the operands that were spelled, in ascending address order. -/
theorem takeTwo_bytes (mk : Operand → Operand → Instr) (a b : Operand) (rest : List Byte)
    (hwf : Operand.listWf [a, b] = true) (hend : [a, b].all (· != .beyond) = true ∨ rest = []) :
    takeTwo mk ([a, b].flatMap Operand.bytes ++ rest) = (mk a b, rest) := by
  cases a with
  | byte x =>
    cases b with
    | byte y => rfl
    | beyond =>
      obtain h | rfl := hend
      · cases h
      · rfl
  | beyond =>
    cases b with
    | byte y => cases hwf
    | beyond =>
      obtain h | rfl := hend
      · cases h
      · rfl

/-- Every format reads back the operands of its instruction (R80). -/
theorem withOperands_operandBytes (i : Instr) (rest : List Byte) (hwf : i.wf = true)
    (hend : i.complete = true ∨ rest = []) :
    i.handler.withOperands (i.operands.flatMap Operand.bytes ++ rest) = (i, rest) := by
  cases i with
  | ldi a b | add a b | sub a b | mul a b | div a b | mod a b => exact takeTwo_bytes _ a b rest hwf hend
  | prn a | push a | pop a | call a => exact takeOne_bytes _ a rest hend
  | hlt | ret => rfl

/-- Settles O1: `lookup_opcode` finds the handler, `withOperands_operandBytes` reads its operands back. -/
theorem decodeOfEncodeIsTheInstruction : Obligations.DecodeOfEncodeIsTheInstruction := by
  intro c i rest hc hwf hend
  simp only [encodeWith, List.cons_append, decodeWith, lookup_opcode c i.handler hc,
    withOperands_operandBytes i rest hwf hend]

/-! ### The bytes that were taken -/

/-- The instruction `i`, cut off only where nothing is left, spells with its operands what stands before `rest` in
`bs`. -/
structure OperandsSpell (i : Instr) (bs rest : List Byte) : Prop where
  /-- no byte follows a missing one -/
  wf : i.wf = true
  /-- the operand bytes are those read -/
  bytes : i.operands.flatMap Operand.bytes ++ rest = bs
  /-- only the end of the bytes cuts an instruction off -/
  ends : i.complete = true ∨ rest = []

/-- The same, said of the list of operands. -/
theorem OperandsSpell.of_operands {i : Instr} {os : List Operand} {bs rest : List Byte} (hi : i.operands = os)
    (hwf : Operand.listWf os = true) (hbytes : os.flatMap Operand.bytes ++ rest = bs)
    (hends : os.all (· != .beyond) = true ∨ rest = []) : OperandsSpell i bs rest := by
  subst hi
  exact ⟨hwf, hbytes, hends⟩

theorem takeOne_spells (mk : Operand → Instr) (hmk : ∀ a, (mk a).operands = [a]) (bs : List Byte) :
    OperandsSpell (takeOne mk bs).1 bs (takeOne mk bs).2 := by
  cases bs with
  | nil => exact .of_operands (hmk _) rfl rfl (.inr rfl)
  | cons b rest => exact .of_operands (hmk _) rfl rfl (.inl rfl)

theorem takeTwo_spells (mk : Operand → Operand → Instr) (hmk : ∀ a b, (mk a b).operands = [a, b]) (bs : List Byte) :
    OperandsSpell (takeTwo mk bs).1 bs (takeTwo mk bs).2 := by
  rcases bs with _ | ⟨b, _ | ⟨d, rest⟩⟩
  · exact .of_operands (hmk _ _) rfl rfl (.inr rfl)
  · exact .of_operands (hmk _ _) rfl rfl (.inr rfl)
  · exact .of_operands (hmk _ _) rfl rfl (.inl rfl)

/-- Every format takes operands that spell the bytes taken (R80). -/
theorem withOperands_spells (h : Handler) (bs : List Byte) :
    (h.withOperands bs).1.handler = h ∧ OperandsSpell (h.withOperands bs).1 bs (h.withOperands bs).2 := by
  cases h with
  | ldi | add | sub | mul | div | mod => exact ⟨rfl, takeTwo_spells _ (fun _ _ => rfl) bs⟩
  | prn | push | pop | call => exact ⟨rfl, takeOne_spells _ (fun _ => rfl) bs⟩
  | hlt | ret => exact ⟨rfl, rfl, rfl, .inl rfl⟩

/-- Settles O2: the opcode byte is the handler's (`opcode_of_lookup`), the operands spell the rest
(`withOperands_spells`). -/
theorem encodeOfDecodeIsTheBytes : Obligations.EncodeOfDecodeIsTheBytes := by
  intro c bs rest i hdec
  cases bs with
  | nil => cases hdec
  | cons b tl =>
    rw [decodeWith] at hdec
    cases hl : lookup c b with
    | none =>
      rw [hl] at hdec
      cases hdec
    | some h =>
      rw [hl] at hdec
      obtain ⟨hh, hspell⟩ := withOperands_spells h tl
      rw [Except.ok.inj hdec] at hh hspell
      exact ⟨hspell.wf, by rw [encodeWith, hh, opcode_of_lookup c b h hl, List.cons_append, hspell.bytes], hspell.ends⟩

/-! ### R81: the length -/

/-- An instruction inside memory has one byte more than its format has operands (R80). -/
theorem length_encodeWith (c : Config) (i : Instr) (hi : i.complete = true) :
    (encodeWith c i).length = i.handler.arity + 1 := by
  cases i with
  | ldi a b | add a b | sub a b | mul a b | div a b | mod a b => exact Laws.EncodedLength.two_operands c _ a b rfl hi
  | prn a | push a | pop a | call a => exact Laws.EncodedLength.single_operand c _ a rfl hi
  | hlt | ret => rfl

/-- Bits 7:6 of a byte are `nops` of it (R8, R81). -/
theorem toNat_extractLsb'_eq_nops (b : Byte) : (b.extractLsb' 6 2).toNat = nops b := by
  have hb : b.toNat < 256 := b.isLt
  rw [BitVec.extractLsb'_toNat, Nat.shiftRight_eq_div_pow, nops]
  omega

/-- Settles O3: both sides are the format's operand count plus 1 (`length_encodeWith`, `nops_opcode`). -/
theorem lengthIsOperandCountPlusOne : Obligations.LengthIsOperandCountPlusOne := by
  intro c i b bs hc hi henc
  have hb : i.handler.opcode c = b := List.head_eq_of_cons_eq henc
  rw [length_encodeWith c i hi, toNat_extractLsb'_eq_nops, ← hb, nops_opcode c _ hc]

/-! ### R86: the opcode map -/

/-- The dispatch table lists every handler (R106). -/
theorem Handler.mem_all (h : Handler) : h ∈ Handler.all := by
  cases h <;> decide

/-- Decoding refuses the first byte exactly when the dispatch table misses it (R103). -/
theorem decode_unsupported_iff (b : Byte) (rest : List Byte) :
    decode (b :: rest) = .error (.unsupported b) ↔ lookup Config.default b = none := by
  rw [decode, decodeWith]
  cases lookup Config.default b <;> simp

/-- The twelve opcode values of R85 as numbers, in the order of the dispatch table. -/
def opcodeNumbers : List Nat :=
  Handler.all.map fun h => (h.opcode Config.default).toNat

/-- The table misses exactly the bytes that are not among the twelve values (R86). -/
theorem lookup_default_eq_none_iff (b : Byte) : lookup Config.default b = none ↔ b.toNat ∉ opcodeNumbers := by
  rw [Machine.lookup_eq_none_iff]
  simp [opcodeNumbers, Handler.mem_all, BitVec.toNat_inj]

/-- As many numbers below `n` as the list leaves out. -/
theorem length_filter_range_not_mem {n : Nat} {l : List Nat} (hl : l.Nodup) (hn : ∀ x ∈ l, x < n) :
    ((List.range n).filter (· ∉ l)).length = n - l.length := by
  have hset : ((List.range n).filter (· ∉ l)).toFinset = Finset.range n \ l.toFinset := by
    ext x
    simp
  have hsub : l.toFinset ⊆ Finset.range n := fun x hx => Finset.mem_range.2 (hn x (List.mem_toFinset.1 hx))
  rw [← List.toFinset_card_of_nodup (List.nodup_range.filter _), hset, Finset.card_sdiff_of_subset hsub,
    Finset.card_range, List.toFinset_card_of_nodup hl]

/-- Settles O4: the table misses the bytes that are none of the twelve values, and the twelve values are distinct. -/
theorem exactlyTwelveOpcodesAreLegal : Obligations.ExactlyTwelveOpcodesAreLegal := by
  refine ⟨fun b rest => (decode_unsupported_iff b rest).trans (lookup_default_eq_none_iff b), ?_⟩
  have hfilter : ∀ n ∈ List.range 256, (lookup Config.default (BitVec.ofNat 8 n)).isNone =
      decide (n ∉ opcodeNumbers) := by
    intro n hn
    have hmod : (BitVec.ofNat 8 n).toNat = n := Nat.mod_eq_of_lt (List.mem_range.1 hn)
    have hiff := lookup_default_eq_none_iff (BitVec.ofNat 8 n)
    rw [hmod] at hiff
    rw [Bool.eq_iff_iff, Option.isNone_iff_eq_none, hiff, decide_eq_true_iff]
  rw [List.filter_congr hfilter]
  exact length_filter_range_not_mem (by decide) (by decide)

/-- Settles O5: the model's decoder evaluated at the eight words. -/
theorem sampleWordsDecode : Obligations.SampleWordsDecode :=
  ⟨rfl, rfl, rfl, rfl, rfl, rfl, rfl, rfl⟩

end Sys2Proof
end

section
/-! The access primitives (R23, R52) and the cycle (R100 to R103): what a step answers at each byte it can fetch, with
the instruction decoded there written out, and the statements read off it. -/
namespace Sys2Proof.Machine

/-! ### The access primitives -/

theorem memWrite_of_invalid {s : State} {a : Int} (v : Int) (ha : ¬ validAddress a) :
    memWrite s a v = .error (.outOfBounds a) :=
  if_neg ha

theorem memWrite_of_not_byte {s : State} {a v : Int} (ha : validAddress a) (hv : ¬ (0 ≤ v ∧ v ≤ 255)) :
    memWrite s a v = .error (.valueOutOfRange v) :=
  (if_pos ha).trans (if_neg hv)

theorem memWrite_of_byte {s : State} {a v : Int} (ha : validAddress a) (hv : 0 ≤ v ∧ v ≤ 255) :
    memWrite s a v = .ok (s.setCell a (BitVec.ofNat 8 v.toNat)) :=
  (if_pos ha).trans (if_pos hv)

/-- A byte value survives the way into a cell and back (R9). -/
theorem toNat_ofNat_of_byte {v : Int} (hv : 0 ≤ v ∧ v ≤ 255) : (((BitVec.ofNat 8 v.toNat).toNat : Nat) : Int) = v := by
  have hmod : v.toNat % 2 ^ 8 = v.toNat := Nat.mod_eq_of_lt (by omega)
  rw [BitVec.toNat_ofNat, hmod, Int.toNat_of_nonneg hv.1]

/-- Settles O7: the three answers of `memWrite`, and the read-after-write laws of memory for the cell written. -/
theorem memWriteFollowsItsRule : Obligations.MemWriteFollowsItsRule := by
  intro s a v hwf
  refine ⟨fun ha => memWrite_of_invalid v ((not_validAddress_iff a).2 ha), fun ha hv =>
    memWrite_of_not_byte ha ((not_validAddress_iff v).2 hv), fun ha hv =>
    ⟨_, memWrite_of_byte ha hv, rfl, State.setCell_wf s a _ hwf ha, ?_, fun b hb => ?_⟩⟩
  · rw [State.setCell_mem, Memory.read_write_same s.mem 0 a.toNat _ hwf, toNat_ofNat_of_byte hv]
  · exact Memory.read_write_other s.mem a.toNat b _ (by omega)

/-- The indices 0 to 7 select some register (R23). -/
theorem Reg.exists_ofIndex {n : Nat} (h : n < 8) : ∃ R, Reg.ofIndex n = some R := by
  cases hR : Reg.ofIndex n with
  | none => exact absurd ((Reg.ofIndex_eq_none_iff n).1 hR) (by omega)
  | some R => exact ⟨R, rfl⟩

/-- The indices 0 to 7 select different registers (R23). -/
theorem Reg.ofIndex_inj {m n : Nat} {R : Reg} (hm : Reg.ofIndex m = some R) (hn : Reg.ofIndex n = some R) : m = n := by
  have hlt : ∀ k, Reg.ofIndex k = some R → k < 8 := fun k hk => by
    by_contra hge
    rw [(Reg.ofIndex_eq_none_iff k).2 (by omega)] at hk
    cases hk
  have hdec : ∀ i j : Fin 8, Reg.ofIndex i = Reg.ofIndex j → i = j := by decide
  exact congrArg Fin.val (hdec ⟨m, hlt m hm⟩ ⟨n, hlt n hn⟩ (hm.trans hn.symm))

/-- Settles O8: an index above 7 names no register; two indices below 8 name one register exactly when they are
equal. -/
theorem registerAccessFollowsItsRule : Obligations.RegisterAccessFollowsItsRule := by
  intro s i j v
  refine ⟨fun hi => ?_, fun hi hj => ?_⟩
  · have hnone : Reg.ofIndex i.toNat = none := (Reg.ofIndex_eq_none_iff _).2 hi
    exact ⟨readReg_of_invalid s i hnone, writeReg_of_invalid _ s i v hnone⟩
  · obtain ⟨I, hI⟩ := Reg.exists_ofIndex hi
    obtain ⟨J, hJ⟩ := Reg.exists_ofIndex hj
    have hij : J = I ↔ j = i := by
      refine ⟨?_, ?_⟩
      · rintro rfl
        exact BitVec.eq_of_toNat_eq (Reg.ofIndex_inj hJ hI)
      · rintro rfl
        exact Option.some.inj (hJ.symm.trans hI)
    refine ⟨s.setReg I v, s.reg J, ?_, readReg_of_index s j J hJ, ?_, rfl⟩
    · rw [writeReg_of_index _ s i v I hI, writeSlot_default]
    · simp only [readReg_of_index _ j J hJ, State.reg_setReg, hij]

/-! ### The step at an opcode byte -/

/-- The instruction of a handler, from the operands at pc0 + 1 and pc0 + 2 (R80). -/
def instrOf : Handler → Operand → Operand → Instr
  | .ldi, a, b => .ldi a b
  | .prn, a, _ => .prn a
  | .hlt, _, _ => .hlt
  | .add, a, b => .add a b
  | .sub, a, b => .sub a b
  | .mul, a, b => .mul a b
  | .div, a, b => .div a b
  | .mod, a, b => .mod a b
  | .push, a, _ => .push a
  | .pop, a, _ => .pop a
  | .call, a, _ => .call a
  | .ret, _, _ => .ret

/-- An instruction is fixed by its handler and its operands, those that its format has. -/
theorem eq_instrOf {i : Instr} {h : Handler} {a b : Operand} (hh : i.handler = h)
    (hops : i.operands = [a, b].take h.arity) : i = instrOf h a b := by
  subst hh
  cases i with
  | ldi | add | sub | mul | div | mod | prn | push | pop | call =>
    cases hops
    rfl
  | hlt | ret => rfl

/-- The instruction the next step runs when it finds the handler `h`. -/
def State.instrAt (s : State) (h : Handler) : Instr :=
  instrOf h (s.operandAt 1) (s.operandAt 2)

/-- What the decoder reads after the opcode byte is the instruction with the operands that stand there (R83). -/
theorem withOperands_eq_instrAt {s : State} (h : Handler) (hv : validAddress s.pc) :
    (h.withOperands (operandBytes s)).1 = s.instrAt h :=
  eq_instrOf (decoded_operands s h hv).1 (decoded_operands s h hv).2

/-- Decoding at the pc finds exactly the instruction that `lookup` selects, with its operands. -/
theorem decode_eq_ok_iff {s : State} {b : Byte} {i : Instr} (hv : validAddress s.pc) :
    (∃ rest, decode (b :: operandBytes s) = .ok (i, rest)) ↔
      ∃ h, lookup Config.default b = some h ∧ i = s.instrAt h := by
  rw [decode, decodeWith]
  cases lookup Config.default b with
  | none => simp
  | some h => simp [← withOperands_eq_instrAt h hv, Prod.ext_iff, eq_comm]

/-- R101: the step at an opcode byte, for any parameters. -/
theorem stepWith_eq_execWith {c : Config} {s : State} {b : Byte} {h : Handler} (hf : s.Fetches b)
    (hl : lookup c b = some h) : stepWith c s = execWith c (s.instrAt h) (s.setIr b) := by
  rw [stepWith, cycle_of_lookup_some _ hf hl, withOperands_eq_instrAt h hf.pcValid]

/-- R101: the step at an opcode byte of the default map. -/
theorem step_eq_exec {s : State} {b : Byte} {h : Handler} (hf : s.Fetches b) (hl : lookup Config.default b = some h) :
    step s = exec (s.instrAt h) (s.setIr b) := by
  rw [step_eq_stepWith, stepWith_eq_execWith hf hl, exec_eq_execWith]

/-- Everything a step can do: a fetch fault, a byte outside the table, or the instruction of a handler at its opcode
byte (R101 to R103). -/
theorem stepWith_eq_next {c : Config} {s t : State} (hs : stepWith c s = .next t) :
    (¬ validAddress s.pc ∧ t = s.faultedBy (.outOfBounds s.pc)) ∨
      (∃ b, s.Fetches b ∧ lookup c b = none ∧ t = (s.setIr b).faultedBy (.unsupportedInstruction b)) ∨
      (∃ h : Handler, s.Fetches (h.opcode c) ∧ execWith c (s.instrAt h) (s.setIr (h.opcode c)) = .next t) := by
  have hr : s.status = .running := running_of_cycle_eq_next hs
  by_cases hv : validAddress s.pc
  swap
  · rw [stepWith, cycle_of_invalid_pc _ _ s hr hv, State.raise_eq, Host.Outcome.next.injEq] at hs
    exact .inl ⟨hv, hs.symm⟩
  have hf : s.Fetches (s.cell s.pc) := ⟨hr, hv, rfl⟩
  cases hl : lookup c (s.cell s.pc) with
  | none =>
    rw [stepWith, cycle_of_lookup_none _ hf hl, State.raise_eq, Host.Outcome.next.injEq] at hs
    exact .inr (.inl ⟨_, hf, hl, hs.symm⟩)
  | some h =>
    rw [stepWith_eq_execWith hf hl, ← opcode_of_lookup c _ h hl] at hs
    exact .inr (.inr ⟨h, opcode_of_lookup c _ h hl ▸ hf, hs⟩)

/-- Settles O9: the instruction decoded at the pc is the one the step runs. -/
theorem stepRunsTheDecodedInstruction : Obligations.StepRunsTheDecodedInstruction := by
  intro s b i rest hf hdec
  obtain ⟨h, hl, rfl⟩ := (decode_eq_ok_iff hf.pcValid).1 ⟨rest, hdec⟩
  exact step_eq_exec hf hl

/-- Settles O11: `exec` and `step` are the parametric core at the default parameters. -/
theorem stepHasTheDefaultParameters : Obligations.StepHasTheDefaultParameters :=
  ⟨fun i s => congrFun (congrFun exec_eq_execWith i) s, step_eq_stepWith⟩

/-- Every core, whatever its parameters, takes its next step while Running: it faults, or a handler answers. -/
theorem stepWith_answers (c : Config) {s : State} (hr : s.status = .running) : ∃ t, stepWith c s = .next t := by
  by_cases hv : validAddress s.pc
  · obtain ⟨t, ht, _⟩ := stepWith_ir c ⟨hr, hv, rfl⟩
    exact ⟨t, ht⟩
  · exact ⟨_, cycle_of_invalid_pc _ _ s hr hv⟩

/-- Settles O14: the handlers all answer (`handlerSteps_answers`), and so does the cycle. -/
theorem runningCoreAlwaysSteps : Obligations.RunningCoreAlwaysSteps := by
  refine ⟨fun i s => ?_, fun s hr => ?_⟩
  · rw [exec_eq_execWith]
    exact handlerSteps_answers _ i.handler _ _ s
  · rw [step_eq_stepWith]
    exact stepWith_answers _ hr

/-- Settles O15: the branch of the cycle for each ended status. -/
theorem endedCoreTakesNoStep : Obligations.EndedCoreTakesNoStep := by
  refine fun s => ⟨fun hs => ?_, fun hs => ?_⟩
  · rw [step, cycle, hs]
  · rw [step, cycle, hs]

/-! ### R83, R101: the literal reading -/

/-- After the fetch an operand byte decoded ahead is what MemRead reads (R83). -/
theorem fetchedOperand_setIr (s : State) (b : Byte) (k : Nat) :
    fetchedOperand (s.operandAt k) k (s.setIr b) = memOperand k (s.setIr b) :=
  fetchedOperand_operandAt s (s.setIr b) k rfl rfl

/-- PUSH asks for its operand only after it has moved the stack pointer (R150). -/
theorem pushSteps_congr {c : Config} {op op' : OperandReader} {s : State}
    (h : op (s.setReg .r7 s.pushSlot) = op' (s.setReg .r7 s.pushSlot)) : pushSteps c op s = pushSteps c op' s := by
  obtain ⟨_, hw⟩ | ⟨_, hw⟩ := writeSlot_cases c s .r7 s.pushSlot
  · simp only [pushSteps, hw, State.attempt_ok, h]
  · simp only [pushSteps, hw, State.attempt_error]

/-- CALL asks for its operand only after it has stored the return address (R160). -/
theorem callSteps_congr {c : Config} {op op' : OperandReader} {s : State}
    (h : validAddress s.pushSlot → ∀ w, op ((s.setReg .r7 s.pushSlot).setCell s.pushSlot w) =
      op' ((s.setReg .r7 s.pushSlot).setCell s.pushSlot w)) : callSteps c op s = callSteps c op' s := by
  obtain ⟨_, hw⟩ | ⟨_, hw⟩ := writeSlot_cases c s .r7 s.pushSlot
  swap
  · simp only [callSteps, hw, State.attempt_error]
  simp only [callSteps, hw, State.attempt_ok, State.reg_setReg_same]
  obtain ⟨ha, _, _, hm⟩ | ⟨_, _, hm⟩ | ⟨_, hm⟩ :=
    memWrite_cases (s.setReg .r7 s.pushSlot) s.pushSlot (s.setReg .r7 s.pushSlot).nextPc
  · simp only [hm, State.attempt_ok, h ha]
  · simp only [hm, State.attempt_error]
  · simp only [hm, State.attempt_error]

/-- The handlers read the operands decoded ahead as they would read them from memory (R83). -/
theorem execWith_instrAt (c : Config) (s : State) (h : Handler) (b : Byte) :
    execWith c (s.instrAt h) (s.setIr b) = handlerSteps c h (memOperand 1) (memOperand 2) (s.setIr b) := by
  cases h with
  | ldi =>
    change ldiSteps c (fetchedOperand (s.operandAt 1) 1) (fetchedOperand (s.operandAt 2) 2) (s.setIr b) =
      ldiSteps c (memOperand 1) (memOperand 2) (s.setIr b)
    simp only [ldiSteps, fetchedOperand_setIr]
  | add | sub | mul | div | mod =>
    change aluSteps c _ (fetchedOperand (s.operandAt 1) 1) (fetchedOperand (s.operandAt 2) 2) (s.setIr b) =
      aluSteps c _ (memOperand 1) (memOperand 2) (s.setIr b)
    simp only [aluSteps, fetchedOperand_setIr]
  | prn =>
    change prnSteps (fetchedOperand (s.operandAt 1) 1) (s.setIr b) = prnSteps (memOperand 1) (s.setIr b)
    simp only [prnSteps, fetchedOperand_setIr]
  | pop =>
    change popSteps c (fetchedOperand (s.operandAt 1) 1) (s.setIr b) = popSteps c (memOperand 1) (s.setIr b)
    simp only [popSteps, fetchedOperand_setIr]
  | push => exact pushSteps_congr (fetchedOperand_operandAt s _ 1 rfl rfl)
  | call => exact callSteps_congr fun ha w => callOperand_after_store (s.setIr b) _ w ha
  | hlt | ret => rfl

/-- Settles O10: the same fetch and the same dispatch, and then the same handler (`execWith_instrAt`). -/
theorem stepIsTheLiteralReading : Obligations.StepIsTheLiteralReading := by
  intro c s
  cases hst : s.status with
  | halted | faulted => simp only [stepWith, cycle, literalStepWith, hst]
  | running =>
    obtain ⟨hv, hm⟩ | ⟨hv, hm⟩ := memRead_cases s s.pc
    swap
    · rw [stepWith, cycle_of_invalid_pc _ _ s hst hv]
      simp only [literalStepWith, hst, hm, State.attempt_error]
    have hf : s.Fetches (s.cell s.pc) := ⟨hst, hv, rfl⟩
    cases hl : lookup c (s.cell s.pc) with
    | none =>
      rw [stepWith, cycle_of_lookup_none _ hf hl]
      simp only [literalStepWith, hst, hm, State.attempt_ok, hl]
    | some h =>
      rw [stepWith_eq_execWith hf hl, execWith_instrAt]
      simp only [literalStepWith, hst, hm, State.attempt_ok, hl]

/-! ### R32: what ends a run -/

/-- Every step that faults has written its record, with ir and the old pc in it (R34, R180). -/
theorem record_of_stepWith_faulted {c : Config} {s t : State} (hs : stepWith c s = .next t)
    (ht : t.status = .faulted) : ∃ e, t.fault = some { cause := e, opcode := t.ir, pc0 := s.pc } := by
  have hr : s.status = .running := running_of_cycle_eq_next hs
  obtain ⟨_, rfl⟩ | ⟨_, _, _, rfl⟩ | ⟨h, _, hex⟩ := stepWith_eq_next hs
  · exact ⟨_, rfl⟩
  · exact ⟨_, rfl⟩
  · obtain ⟨s', e, he, hsame⟩ | hdone := handlerSteps_eq_next hex
    · cases he
      exact ⟨e, by rw [hsame.pc]; rfl⟩
    · rw [hdone.status] at ht
      split at ht
      · cases ht
      · cases hr.symm.trans ht

/-- Settles O16: a step was taken Running; HLT's converse, the record of a fault, and a completed handler's frame. -/
theorem onlyHltAndFaultsEndARun : Obligations.OnlyHltAndFaultsEndARun := by
  intro s t hs
  rw [step_eq_stepWith] at hs
  refine ⟨running_of_cycle_eq_next hs, fetches_hlt_of_stepWith_halted hs, record_of_stepWith_faulted hs, fun ht => ?_⟩
  obtain ⟨_, _, hdone⟩ := stepWith_completes (fetches_of_stepWith_eq_next hs ht) hs ht
  exact hdone.fault

/-! ### The placed word (log 15) -/

theorem State.fetchablePc_bounds (s : State) : 0 ≤ s.fetchablePc ∧ s.fetchablePc ≤ 253 := by
  unfold State.fetchablePc
  split
  · next h => exact h
  · omega

/-- The placed bytes stand where the next step fetches. -/
theorem withFetchWord_cell {s : State} (nbits w i : Nat) (hwf : s.mem.wf = true) (hi : i < 3) :
    some ((s.withFetchWord nbits w).cell (s.fetchablePc + i)) = (tableBytes nbits w)[i]? := by
  obtain ⟨h0, h1⟩ := s.fetchablePc_bounds
  have hlen : (tableBytes nbits w).length = 3 := rfl
  have hin := State.place_read_inside (tableBytes nbits w) ((s.setPc s.fetchablePc).setStatus .running) s.fetchablePc i
    hwf h0 (by omega) (by omega)
  have haddr : (s.fetchablePc + i).toNat = s.fetchablePc.toNat + i := by omega
  rw [State.cell, haddr]
  exact hin

/-- Placing a word moves the pc to where it stands and sets the core Running. -/
theorem withFetchWord_control (s : State) (nbits w : Nat) :
    (s.withFetchWord nbits w).pc = s.fetchablePc ∧ (s.withFetchWord nbits w).status = .running :=
  have hplace := State.place_eq (tableBytes nbits w) ((s.setPc s.fetchablePc).setStatus .running) s.fetchablePc
  ⟨congrArg State.pc hplace, congrArg State.status hplace⟩

/-- Settles O17: the placed bytes are the opcode byte and the operand bytes of the next fetch. -/
theorem placedWordIsRunNext : Obligations.PlacedWordIsRunNext := by
  intro s nbits w i hwf hdec
  obtain ⟨h0, h1⟩ := s.fetchablePc_bounds
  obtain ⟨hpc, hrun⟩ := withFetchWord_control s nbits w
  have hcell := fun k => withFetchWord_cell (s := s) nbits w k hwf
  generalize s.withFetchWord nbits w = t at hpc hrun hcell ⊢
  have hcell0 : t.cell t.pc = BitVec.ofNat 8 (w % 2 ^ nbits) := by
    rw [hpc]
    simpa [tableBytes] using hcell 0 (by decide)
  have hop : ∀ k : Nat, k < 3 → t.operandAt k = .byte (t.cell (t.pc + (k : Int))) := fun k hk =>
    State.operandAt_of_valid (by rw [hpc]; exact ⟨by omega, by omega⟩)
  have hbytes : BitVec.ofNat 8 (w % 2 ^ nbits) :: operandBytes t = tableBytes nbits w := by
    have h1 := hcell 1 (by decide)
    have h2 := hcell 2 (by decide)
    rw [operandBytes_eq, hop 1 (by decide), hop 2 (by decide), hpc]
    simp only [tableBytes, List.getElem?_cons_succ, List.getElem?_cons_zero, Option.some.injEq] at h1 h2
    simp only [Operand.bytes, List.cons_append, List.nil_append, tableBytes, h1, h2]
  have hf : t.Fetches (BitVec.ofNat 8 (w % 2 ^ nbits)) := ⟨hrun, by rw [hpc]; exact ⟨h0, by omega⟩, hcell0⟩
  rw [decodeTableWord, ← hbytes] at hdec
  split at hdec
  · next j rest hj =>
    cases hdec
    exact stepRunsTheDecodedInstruction t _ _ rest hf hj
  · cases hdec

end Sys2Proof.Machine
end

section
/-! What an instruction changes and what it leaves (R25, R53, R106, R180). The states in which a handler raises or which
it leaves when it completes are listed once (`handlerSteps_effect`); the frames, the two invariants, the range of the
registers and the precision of faults are read off that list. -/
namespace Sys2Proof.Machine

/-! ### The states a handler can leave -/

/-- The instructions that write the register their first operand names: LDI, the ALU instructions and POP. -/
def writesOperand : Handler → Bool
  | .ldi | .add | .sub | .mul | .div | .mod | .pop => true
  | .prn | .hlt | .push | .call | .ret => false

/-- The instructions that move the stack pointer. -/
def movesStack : Handler → Bool
  | .push | .pop | .call | .ret => true
  | .ldi | .prn | .hlt | .add | .sub | .mul | .div | .mod => false

/-- The state of PUSH and CALL after their first step: the stack pointer is decremented (R150, R160). -/
def State.pushed (s : State) : State :=
  s.setReg .r7 s.pushSlot

/-- The state of POP before it moves the stack pointer: the byte is loaded (R151). -/
def State.popped (s : State) (R : Reg) : State :=
  s.setReg R ((s.cell s.popSlot).toNat : Int)

/-- The first operand byte is read in `s` and names the register `R`. -/
def NamesFirst (op1 : OperandReader) (s : State) (R : Reg) : Prop :=
  ∃ r, op1 s = .ok r ∧ Reg.ofIndex r.toNat = some R

/-- The states in which a handler that started in `s` can raise: what the numbered steps before the fault left. -/
inductive RaisesIn (c : Config) (h : Handler) (op1 : OperandReader) (s : State) : State → Prop where
  /-- nothing was written -/
  | unchanged : RaisesIn c h op1 s s
  /-- PUSH and CALL have decremented the stack pointer -/
  | pushed (hh : h = .push ∨ h = .call) (hr : inRange c s.pushSlot = true) : RaisesIn c h op1 s s.pushed
  /-- CALL has stored the return address too -/
  | stored (hh : h = .call) (hr : inRange c s.pushSlot = true) (ha : validAddress s.pushSlot)
      (hv : 0 ≤ s.nextPc ∧ s.nextPc ≤ 255) :
      RaisesIn c h op1 s (s.pushed.setCell s.pushSlot (BitVec.ofNat 8 s.nextPc.toNat))
  /-- POP has loaded the byte, and the incremented stack pointer fits no register -/
  | popped (R : Reg) (hh : h = .pop) (hR : NamesFirst op1 s R) (hr : inRange c ((s.cell s.popSlot).toNat : Int) = true)
      (hn : inRange c ((s.popped R).reg .r7 + 1) = false) : RaisesIn c h op1 s (s.popped R)

/-- The states, but for pc and status, that a completed handler leaves. -/
inductive Completes (c : Config) (h : Handler) (op1 : OperandReader) (s : State) : State → Prop where
  /-- HLT writes the status only -/
  | unchanged : Completes c h op1 s s
  /-- PRN emits the register it names -/
  | emitted (R : Reg) (hh : h = .prn) (hR : NamesFirst op1 s R) : Completes c h op1 s (s.emit (s.reg R))
  /-- LDI and the ALU instructions write the register they name first -/
  | written (R : Reg) (v : Int) (hh : writesOperand h = true) (hR : NamesFirst op1 s R) (hr : inRange c v = true) :
      Completes c h op1 s (s.setReg R v)
  /-- PUSH and CALL store a byte at the decremented stack pointer -/
  | stored (b : Byte) (hh : h = .push ∨ h = .call) (hr : inRange c s.pushSlot = true) (ha : validAddress s.pushSlot) :
      Completes c h op1 s (s.pushed.setCell s.pushSlot b)
  /-- POP loads the byte and increments the stack pointer -/
  | popped (R : Reg) (hh : h = .pop) (hR : NamesFirst op1 s R) (hr : inRange c ((s.cell s.popSlot).toNat : Int) = true)
      (hn : inRange c ((s.popped R).reg .r7 + 1) = true) :
      Completes c h op1 s ((s.popped R).setReg .r7 ((s.popped R).reg .r7 + 1))
  /-- RET increments the stack pointer -/
  | returned (hh : h = .ret) (hr : inRange c (s.reg .r7 + 1) = true) :
      Completes c h op1 s (s.setReg .r7 (s.reg .r7 + 1))

/-- Everything a handler can do, said once: it raises in one of the states of `RaisesIn`, or leaves one of the states of
`Completes` with a pc and a status of its own. -/
theorem handlerSteps_effect {c : Config} {h : Handler} {op1 op2 : OperandReader} {s t : State}
    (hs : handlerSteps c h op1 op2 s = .next t) :
    (∃ s' e, RaisesIn c h op1 s s' ∧ t = s'.faultedBy e) ∨
      (∃ s' p, Completes c h op1 s s' ∧ t = { s' with pc := p, status := if h = .hlt then .halted else s.status }) := by
  have raised : ∀ {s' e}, RaisesIn c h op1 s s' → s'.raise e = .next t →
      ∃ s' e, RaisesIn c h op1 s s' ∧ t = s'.faultedBy e :=
    fun hin he => ⟨_, _, hin, (State.raise_eq_next_iff _ _ _).1 he⟩
  cases h with
  | ldi =>
    obtain ⟨e, he⟩ | ⟨r, _, R, hop, _, hR, hr, rfl⟩ := ldiSteps_eq_next hs
    · exact .inl (raised .unchanged he)
    · exact .inr ⟨_, _, .written R _ rfl ⟨r, hop, hR⟩ hr, rfl⟩
  | prn =>
    obtain ⟨e, he⟩ | ⟨r, R, hop, hR, rfl⟩ := prnSteps_eq_next hs
    · exact .inl (raised .unchanged he)
    · exact .inr ⟨_, _, .emitted R rfl ⟨r, hop, hR⟩, rfl⟩
  | hlt =>
    cases (advance_eq_next_iff _ _).1 hs
    exact .inr ⟨s, _, .unchanged, rfl⟩
  | add | sub | mul | div | mod =>
    obtain ⟨e, he⟩ | ⟨r, _, R, _, hop, _, hR, _, _, hr, rfl⟩ := aluSteps_eq_next hs
    · exact .inl (raised .unchanged he)
    · exact .inr ⟨_, _, .written R _ rfl ⟨r, hop, hR⟩ hr, rfl⟩
  | push =>
    obtain ⟨_, he⟩ | ⟨hr, e, he⟩ | ⟨_, _, hr, _, _, ha, _, _, rfl⟩ := pushSteps_eq_next hs
    · exact .inl (raised .unchanged he)
    · exact .inl (raised (.pushed (.inl rfl) hr) he)
    · exact .inr ⟨_, _, .stored _ (.inl rfl) hr ha, rfl⟩
  | pop =>
    obtain ⟨e, he⟩ | ⟨r, R, _, hop, hR, hr, ⟨hn, rfl⟩ | ⟨hn, he⟩⟩ := popSteps_eq_next hs
    · exact .inl (raised .unchanged he)
    · exact .inr ⟨_, _, .popped R rfl ⟨r, hop, hR⟩ hr hn, rfl⟩
    · exact .inl (raised (.popped R rfl ⟨r, hop, hR⟩ hr hn) he)
  | call =>
    obtain ⟨_, he⟩ | ⟨hr, e, he⟩ | ⟨hr, ha, h0, h1, ⟨e, he⟩ | ⟨_, R, _, _, rfl⟩⟩ := callSteps_eq_next hs
    · exact .inl (raised .unchanged he)
    · exact .inl (raised (.pushed (.inr rfl) hr) he)
    · exact .inl (raised (.stored rfl hr ha ⟨h0, h1⟩) he)
    · exact .inr ⟨_, _, .stored _ (.inr rfl) hr ha, rfl⟩
  | ret =>
    obtain ⟨e, he⟩ | ⟨_, hr, rfl⟩ := retSteps_eq_next hs
    · exact .inl (raised .unchanged he)
    · exact .inr ⟨_, _, .returned rfl hr, rfl⟩

/-! ### The frame of every handler -/

/-- The registers an instruction can write: the stack pointer, and the register its first operand names (R25, R106). -/
def MayWrite (h : Handler) (op1 : OperandReader) (s : State) (q : Reg) : Prop :=
  (movesStack h = true ∧ q = .r7) ∨ (writesOperand h = true ∧ NamesFirst op1 s q)

/-- What a handler that started in `s` leaves alone in `t`, faulting or not. -/
structure HandlerFrame (c : Config) (h : Handler) (op1 : OperandReader) (s t : State) : Prop where
  /-- a register is unchanged, or one it may write, and then inside the range -/
  regs : ∀ q, t.reg q = s.reg q ∨ (MayWrite h op1 s q ∧ inRange c (t.reg q) = true)
  /-- memory is unchanged, or PUSH or CALL wrote the cell at the decremented stack pointer -/
  mem : t.mem = s.mem ∨
    ((h = .push ∨ h = .call) ∧ validAddress s.pushSlot ∧ ∃ b, t.mem = s.mem.write s.pushSlot.toNat b)
  /-- the output is unchanged, or PRN appended the register it names -/
  out : t.out = s.out ∨ (h = .prn ∧ ∃ R, NamesFirst op1 s R ∧ t.out = s.out ++ [s.reg R])

theorem HandlerFrame.refl (c : Config) (h : Handler) (op1 : OperandReader) (s : State) : HandlerFrame c h op1 s s :=
  ⟨fun _ => .inl rfl, .inl rfl, .inl rfl⟩

/-- A write of one register, of those the handler may write, keeps the frame. -/
theorem HandlerFrame.setReg {c : Config} {h : Handler} {op1 : OperandReader} {s t : State}
    (hf : HandlerFrame c h op1 s t) {R : Reg} {v : Int} (hw : MayWrite h op1 s R) (hr : inRange c v = true) :
    HandlerFrame c h op1 s (t.setReg R v) := by
  refine ⟨fun q => ?_, hf.mem, hf.out⟩
  rw [State.reg_setReg]
  split
  · next hq => exact .inr ⟨hq ▸ hw, hr⟩
  · exact hf.regs q

theorem movesStack_of_push_or_call {h : Handler} (hh : h = .push ∨ h = .call) : movesStack h = true := by
  obtain rfl | rfl := hh <;> rfl

/-- The decremented stack pointer is inside the frame of PUSH and CALL. -/
theorem HandlerFrame.pushed {c : Config} {h : Handler} {op1 : OperandReader} {s : State} (hh : h = .push ∨ h = .call)
    (hr : inRange c s.pushSlot = true) : HandlerFrame c h op1 s s.pushed :=
  (HandlerFrame.refl c h op1 s).setReg (.inl ⟨movesStack_of_push_or_call hh, rfl⟩) hr

/-- So is a store at the decremented stack pointer. -/
theorem HandlerFrame.stored {c : Config} {h : Handler} {op1 : OperandReader} {s : State} (b : Byte)
    (hh : h = .push ∨ h = .call) (hr : inRange c s.pushSlot = true) (ha : validAddress s.pushSlot) :
    HandlerFrame c h op1 s (s.pushed.setCell s.pushSlot b) :=
  ⟨(HandlerFrame.pushed hh hr).regs, .inr ⟨hh, ha, b, rfl⟩, .inl rfl⟩

/-- The byte that POP loads is inside its frame. -/
theorem HandlerFrame.popped {c : Config} {h : Handler} {op1 : OperandReader} {s : State} {R : Reg} (hh : h = .pop)
    (hR : NamesFirst op1 s R) (hr : inRange c ((s.cell s.popSlot).toNat : Int) = true) :
    HandlerFrame c h op1 s (s.popped R) :=
  (HandlerFrame.refl c h op1 s).setReg (.inr ⟨hh ▸ rfl, hR⟩) hr

theorem RaisesIn.frame {c : Config} {h : Handler} {op1 : OperandReader} {s s' : State} (hin : RaisesIn c h op1 s s') :
    HandlerFrame c h op1 s s' := by
  cases hin with
  | unchanged => exact .refl c h op1 s
  | pushed hh hr => exact .pushed hh hr
  | stored hh hr ha _ => exact .stored _ (.inr hh) hr ha
  | popped R hh hR hr _ => exact .popped hh hR hr

theorem Completes.frame {c : Config} {h : Handler} {op1 : OperandReader} {s s' : State}
    (hin : Completes c h op1 s s') : HandlerFrame c h op1 s s' := by
  cases hin with
  | unchanged => exact .refl c h op1 s
  | emitted R hh hR => exact ⟨fun _ => .inl rfl, .inl rfl, .inr ⟨hh, R, hR, rfl⟩⟩
  | written R v hh hR hr => exact (HandlerFrame.refl c h op1 s).setReg (.inr ⟨hh, hR⟩) hr
  | stored b hh hr ha => exact .stored b hh hr ha
  | popped R hh hR hr hn => exact (HandlerFrame.popped hh hR hr).setReg (.inl ⟨hh ▸ rfl, rfl⟩) hn
  | returned hh hr => exact (HandlerFrame.refl c h op1 s).setReg (.inl ⟨hh ▸ rfl, rfl⟩) hr

/-- The frame of every handler, whatever its outcome. -/
theorem handlerSteps_frame {c : Config} {h : Handler} {op1 op2 : OperandReader} {s t : State}
    (hs : handlerSteps c h op1 op2 s = .next t) : HandlerFrame c h op1 s t := by
  obtain ⟨s', e, hin, rfl⟩ | ⟨s', p, hin, rfl⟩ := handlerSteps_effect hs
  · exact ⟨hin.frame.regs, hin.frame.mem, hin.frame.out⟩
  · exact ⟨hin.frame.regs, hin.frame.mem, hin.frame.out⟩

/-! ### The frames of the instructions -/

/-- The frame of an instruction of the core with the default parameters. -/
theorem exec_frame {i : Instr} {s t : State} (hs : exec i s = .next t) :
    HandlerFrame Config.default i.handler (operandOne i) s t := by
  rw [exec_eq_execWith] at hs
  exact handlerSteps_frame hs

theorem exec_ir {i : Instr} {s t : State} (hs : exec i s = .next t) : t.ir = s.ir := by
  rw [exec_eq_execWith] at hs
  exact handlerSteps_ir hs

/-- Only HLT changes status or fault record without a fault (R25, R122). -/
theorem keptOrFaulted_of_exec {i : Instr} {s t : State} (hs : exec i s = .next t) (hi : i.handler ≠ .hlt) :
    KeptOrFaulted s t := by
  rw [exec_eq_execWith] at hs
  obtain ⟨s', e, he, hsame⟩ | hdone := handlerSteps_eq_next hs
  · cases he
    exact .inr ⟨rfl, hsame.pc, e, by rw [hsame.pc, hsame.ir]⟩
  · exact .inl ⟨hdone.status.trans (if_neg hi), hdone.fault⟩

/-- An operand that was read is a byte inside memory. -/
theorem fetchedOperand_eq_ok {o : Operand} {k : Nat} {s : State} {b : Byte} (h : fetchedOperand o k s = .ok b) :
    o = .byte b := by
  cases o with
  | byte d =>
    cases h
    rfl
  | beyond => cases h

/-- The register a decoded first operand names is the one its byte names. -/
theorem operandNames_of_namesFirst {o : Operand} {s : State} {R : Reg} (h : NamesFirst (fetchedOperand o 1) s R) :
    OperandNames o R := by
  obtain ⟨r, hop, hR⟩ := h
  exact ⟨r, fetchedOperand_eq_ok hop, hR⟩

namespace HandlerFrame

variable {c : Config} {h : Handler} {op1 : OperandReader} {s t : State}

theorem reg_eq (hf : HandlerFrame c h op1 s t) {q : Reg} (hq : ¬ MayWrite h op1 s q) : t.reg q = s.reg q :=
  (hf.regs q).resolve_right fun hw => hq hw.1

theorem mem_eq (hf : HandlerFrame c h op1 s t) (hpush : h ≠ .push) (hcall : h ≠ .call) : t.mem = s.mem :=
  hf.mem.resolve_right fun hw => hw.1.elim hpush hcall

theorem out_eq (hf : HandlerFrame c h op1 s t) (hprn : h ≠ .prn) : t.out = s.out :=
  hf.out.resolve_right fun hw => hprn hw.1

/-- No cell but the one at the decremented stack pointer changes. -/
theorem read_eq (hf : HandlerFrame c h op1 s t) {a : Nat} (ha : (a : Int) ≠ s.pushSlot) :
    t.mem.read a = s.mem.read a := by
  obtain hm | ⟨_, hv, b, hm⟩ := hf.mem
  · rw [hm]
  · rw [hm]
    exact Memory.read_write_other s.mem s.pushSlot.toNat a b (by omega)

end HandlerFrame

/-- Settles O28: the frame of `exec`; none of the six moves the stack pointer, and all write the first operand's
register. -/
theorem loadAndAluFrame : Obligations.LoadAndAluFrame := by
  intro s t o1 o2 i hi hs
  have hfirst : operandOne i = fetchedOperand o1 1 ∧ movesStack i.handler = false ∧ i.handler ≠ .hlt ∧
      i.handler ≠ .push ∧ i.handler ≠ .call ∧ i.handler ≠ .prn := by
    simp only [List.mem_cons, List.not_mem_nil, or_false] at hi
    obtain rfl | rfl | rfl | rfl | rfl | rfl := hi <;> exact ⟨rfl, rfl, nofun, nofun, nofun, nofun⟩
  obtain ⟨hop, hstack, hhlt, hpush, hcall, hprn⟩ := hfirst
  have hf := exec_frame hs
  refine ⟨fun q hq => hf.reg_eq ?_, fun a => by rw [hf.mem_eq hpush hcall], exec_ir hs, hf.out_eq hprn,
    keptOrFaulted_of_exec hs hhlt⟩
  rintro (⟨hmove, _⟩ | ⟨_, hnames⟩)
  · exact absurd (hstack.symm.trans hmove) Bool.false_ne_true
  · exact hq (operandNames_of_namesFirst (hop ▸ hnames))

/-- Settles O29: the two outcomes of `prnSteps_eq_next`, and the one of HLT. -/
theorem prnHltFrame : Obligations.PrnHltFrame := by
  refine ⟨fun s t o hs => ?_, fun s t hs => ?_⟩
  · have hkept : KeptOrFaulted s t := keptOrFaulted_of_exec hs nofun
    obtain ⟨e, he⟩ | ⟨_, R, _, _, rfl⟩ := prnSteps_eq_next hs
    · cases he
      exact ⟨fun _ => rfl, fun _ => rfl, rfl, hkept, fun _ _ => rfl, .inl rfl⟩
    · exact ⟨fun _ => rfl, fun _ => rfl, rfl, hkept, fun ht hs => absurd ht hs, .inr ⟨_, rfl⟩⟩
  · cases (advance_eq_next_iff _ _).1 hs
    exact ⟨fun _ => rfl, fun _ => rfl, rfl, rfl, rfl⟩

/-- Settles O30: the frame of `exec`; PUSH and CALL write no register but the stack pointer. -/
theorem pushCallFrame : Obligations.PushCallFrame := by
  intro s t o i hi hs
  have hkind : writesOperand i.handler = false ∧ i.handler ≠ .hlt ∧ i.handler ≠ .prn := by
    simp only [List.mem_cons, List.not_mem_nil, or_false] at hi
    obtain rfl | rfl := hi <;> exact ⟨rfl, nofun, nofun⟩
  obtain ⟨hwrites, hhlt, hprn⟩ := hkind
  have hf := exec_frame hs
  refine ⟨fun q hq => hf.reg_eq ?_, fun a ha => hf.read_eq ha, exec_ir hs, hf.out_eq hprn,
    keptOrFaulted_of_exec hs hhlt⟩
  rintro (⟨_, hr7⟩ | ⟨hw, _⟩)
  · exact hq hr7
  · exact absurd (hwrites.symm.trans hw) Bool.false_ne_true

/-- Settles O31: the frame of `exec` for POP, which writes its operand's register too, and for RET. -/
theorem popRetFrame : Obligations.PopRetFrame := by
  refine ⟨fun s t o hs => ?_, fun s t hs => ?_⟩
  · have hf := exec_frame hs
    refine ⟨fun q hq hnames => hf.reg_eq ?_, fun a => by rw [hf.mem_eq nofun nofun], exec_ir hs, hf.out_eq nofun,
      keptOrFaulted_of_exec hs nofun⟩
    rintro (⟨_, hr7⟩ | ⟨_, hfirst⟩)
    · exact hq hr7
    · exact hnames (operandNames_of_namesFirst hfirst)
  · have hf := exec_frame hs
    refine ⟨fun q hq => hf.reg_eq ?_, fun a => by rw [hf.mem_eq nofun nofun], exec_ir hs, hf.out_eq nofun,
      keptOrFaulted_of_exec hs nofun⟩
    rintro (⟨_, hr7⟩ | ⟨hw, _⟩)
    · exact hq hr7
    · cases hw

/-! ### The whole step -/

@[simp] theorem handler_instrAt (s : State) (h : Handler) : (s.instrAt h).handler = h := by
  cases h <;> rfl

/-- The frame of the handler that a step runs, from the state after the fetch. -/
theorem execWith_instrAt_frame {c : Config} {s u t : State} {h : Handler}
    (hex : execWith c (s.instrAt h) u = .next t) : HandlerFrame c h (operandOne (s.instrAt h)) u t := by
  have hf := handlerSteps_frame hex
  rwa [handler_instrAt] at hf

/-- The default opcode bytes of PUSH and CALL (R85, D3). -/
theorem fetches_push_or_call {s : State} {h : Handler} (hf : s.Fetches (h.opcode Config.default))
    (hh : h = .push ∨ h = .call) : s.Fetches 0x45#8 ∨ s.Fetches 0x50#8 := by
  obtain rfl | rfl := hh
  · exact .inl hf
  · exact .inr hf

/-- Settles O32: the frame of the handler that the step ran; a step that ran none leaves memory alone. -/
theorem onlyPushAndCallWriteMemory : Obligations.OnlyPushAndCallWriteMemory := by
  intro s t a hs hne
  rw [step_eq_stepWith] at hs
  obtain ⟨_, rfl⟩ | ⟨_, _, _, rfl⟩ | ⟨h, hf, hex⟩ := stepWith_eq_next hs
  · exact absurd rfl hne
  · exact absurd rfl hne
  · have hframe := execWith_instrAt_frame hex
    have ha : (a : Int) = s.pushSlot := by
      by_contra hno
      exact hne (hframe.read_eq hno)
    refine ⟨?_, ha⟩
    obtain hm | ⟨hh, _⟩ := hframe.mem
    · exact absurd (congrArg (Memory.read · a) hm) hne
    · exact fetches_push_or_call hf hh

/-- The register that a decoded first operand names is that of the byte at pc0 + 1. -/
theorem namesFirst_operandAt {s u : State} {R : Reg} (h : NamesFirst (fetchedOperand (s.operandAt 1) 1) u R) :
    validAddress (s.pc + 1) ∧ Reg.ofIndex (s.cell (s.pc + 1)).toNat = some R := by
  obtain ⟨r, hop, hR⟩ := operandNames_of_namesFirst h
  by_cases hv : validAddress (s.pc + ((1 : Nat) : Int))
  · rw [State.operandAt_of_valid hv] at hop
    cases hop
    exact ⟨hv, hR⟩
  · rw [State.operandAt_of_invalid hv] at hop
    cases hop

/-- Settles O33: the frame of the handler that the step ran; its operand is the byte at pc0 + 1. -/
theorem onlyPrnAppendsToTheOutput : Obligations.OnlyPrnAppendsToTheOutput := by
  intro s t hs
  rw [step_eq_stepWith] at hs
  obtain ⟨_, rfl⟩ | ⟨_, _, _, rfl⟩ | ⟨h, hf, hex⟩ := stepWith_eq_next hs
  · exact .inl rfl
  · exact .inl rfl
  · obtain hout | ⟨rfl, R, hR, hout⟩ := (execWith_instrAt_frame hex).out
    · exact .inl hout
    · obtain ⟨hv, hname⟩ := namesFirst_operandAt hR
      exact .inr ⟨R, hf, hv, hname, hout⟩

/-! ### The precision of faults -/

/-- The handler that a faulting step ran raised in one of the states of `RaisesIn`. -/
theorem raisesIn_of_execWith_faulted {c : Config} {s u t : State} {h : Handler}
    (hex : execWith c (s.instrAt h) u = .next t) (hrun : u.status = .running) (ht : t.status = .faulted) :
    ∃ u' e, RaisesIn c h (operandOne (s.instrAt h)) u u' ∧ t = u'.faultedBy e := by
  obtain hraise | ⟨u', p, _, rfl⟩ := handlerSteps_effect hex
  · rwa [handler_instrAt] at hraise
  · simp only [hrun] at ht
    split at ht <;> cases ht

/-- What a fault under the default parameters leaves in registers and memory, from the state after the fetch (R180). -/
theorem RaisesIn.precise {h : Handler} {op1 : OperandReader} {u u' : State} (hin : RaisesIn Config.default h op1 u u')
    (hwf : u.mem.wf = true) :
    (∀ q, q ≠ .r7 → u'.reg q = u.reg q) ∧
      (u'.reg .r7 = u.reg .r7 ∨ ((h = .push ∨ h = .call) ∧ u'.reg .r7 = u.reg .r7 - 1)) ∧
      ∀ a : Nat, u'.mem.read a = u.mem.read a ∨
        (h = .call ∧ (a : Int) = u.pushSlot ∧ ((u'.mem.read a).toNat : Int) = u.nextPc) := by
  have hother : ∀ q, q ≠ .r7 → u.pushed.reg q = u.reg q := fun q hq => (u.reg_setReg .r7 q _).trans (if_neg hq)
  have hsp : u.pushed.reg .r7 = u.reg .r7 - 1 := u.reg_setReg_same .r7 _
  cases hin with
  | unchanged => exact ⟨fun _ _ => rfl, .inl rfl, fun _ => .inl rfl⟩
  | pushed hh _ => exact ⟨hother, .inr ⟨hh, hsp⟩, fun _ => .inl rfl⟩
  | stored hh _ ha hv =>
    refine ⟨hother, .inr ⟨.inr hh, hsp⟩, fun a => ?_⟩
    by_cases haddr : (a : Int) = u.pushSlot
    · have hread := State.cell_setCell_same u.pushed u.pushSlot (BitVec.ofNat 8 u.nextPc.toNat) hwf
      rw [State.cell, ← haddr, Int.toNat_natCast] at hread
      exact .inr ⟨hh, haddr, by rw [← haddr, hread, toNat_ofNat_of_byte hv]⟩
    · exact .inl (Memory.read_write_other _ _ a _ (by have := ha.1; omega))
  | popped R _ _ _ hn => cases (inRange_default _).symm.trans hn

/-- Settles O41: a fault before the handler leaves registers and memory alone; one in a handler, `RaisesIn.precise`. -/
theorem faultsArePrecise : Obligations.FaultsArePrecise := by
  intro s t hinv hs ht
  rw [step_eq_stepWith] at hs
  refine ⟨record_of_stepWith_faulted hs ht, ?_⟩
  obtain ⟨_, rfl⟩ | ⟨_, _, _, rfl⟩ | ⟨h, hf, hex⟩ := stepWith_eq_next hs
  · exact ⟨rfl, rfl, fun _ _ => rfl, .inl rfl, fun _ => .inl rfl⟩
  · exact ⟨rfl, rfl, fun _ _ => rfl, .inl rfl, fun _ => .inl rfl⟩
  · obtain ⟨u, e, hin, rfl⟩ := raisesIn_of_execWith_faulted hex hf.running ht
    have hpc : u.pc = s.pc := by cases hin <;> rfl
    have hout : u.out = s.out := by cases hin <;> rfl
    obtain ⟨hreg, hsp, hmem⟩ := hin.precise hinv.memWf
    refine ⟨hpc, hout, hreg, hsp.imp_right (And.imp_left (fetches_push_or_call hf)), fun a => ?_⟩
    obtain hkept | ⟨rfl, haddr, hval⟩ := hmem a
    · exact .inl hkept
    · have hnops : nops (Handler.call.opcode Config.default) = 1 := rfl
      rw [State.setIr_nextPc, hnops, Nat.cast_one, add_assoc] at hval
      exact .inr ⟨hf, haddr, hval⟩

/-! ### The invariants -/

/-- A handler keeps memory in canonical form (R50, R52). -/
theorem HandlerFrame.wf {c : Config} {h : Handler} {op1 : OperandReader} {s t : State}
    (hf : HandlerFrame c h op1 s t) (hwf : s.mem.wf = true) : t.mem.wf = true := by
  obtain hm | ⟨_, ha, b, hm⟩ := hf.mem
  · rwa [hm]
  · rw [hm]
    exact State.setCell_wf s s.pushSlot b hwf ha

/-- The invariant is kept for every choice of the parameters: memory by the frame of the handler, the fault record since
every fault writes one and nothing else does. -/
theorem State.Inv.stepWith {c : Config} {s t : State} (hinv : s.Inv) (hs : stepWith c s = .next t) : t.Inv := by
  have hnone : s.fault = none := by
    have hrun : s.status = .running := running_of_cycle_eq_next hs
    have hiff := hinv.faultIff
    simpa [hrun] using hiff
  refine ⟨?_, ?_⟩
  · obtain ⟨_, rfl⟩ | ⟨_, _, _, rfl⟩ | ⟨h, _, hex⟩ := stepWith_eq_next hs
    · exact hinv.memWf
    · exact hinv.memWf
    · exact (execWith_instrAt_frame hex).wf hinv.memWf
  · by_cases ht : t.status = .faulted
    · obtain ⟨e, he⟩ := record_of_stepWith_faulted hs ht
      simp [ht, he]
    · obtain ⟨_, _, hdone⟩ := stepWith_completes (fetches_of_stepWith_eq_next hs ht) hs ht
      have hkept : t.fault = none := hdone.fault.trans hnone
      simp [ht, hkept]

/-- Settles O45: the default parameters are one choice. -/
theorem stepKeepsTheInvariant : Obligations.StepKeepsTheInvariant := by
  intro s t hinv hs
  rw [step_eq_stepWith] at hs
  exact hinv.stepWith hs

/-- REG_MIN is at most 0 and REG_MAX at least 255, so a byte fits every register (R7, R20). -/
theorem inRange_of_byte {c : Config} {v : Int} (hc : c.valid = true) (hv : 0 ≤ v ∧ v ≤ 255) : inRange c v = true := by
  simp only [Config.valid, Bool.and_eq_true] at hc
  obtain ⟨⟨⟨hmin, hmax⟩, _⟩, _⟩ := hc
  rw [Option.all_eq_true] at hmin hmax
  rw [inRange, Bool.and_eq_true, Option.all_eq_true, Option.all_eq_true]
  exact ⟨fun m hm => decide_eq_true ((of_decide_eq_true (hmin m hm)).trans hv.1),
    fun m hm => decide_eq_true (hv.2.trans (of_decide_eq_true (hmax m hm)))⟩

/-- A register after reset holds a byte value (R37). -/
theorem reset_reg (q : Reg) : State.reset.reg q = if q = .r7 then 0xF4 else 0 := by
  cases q <;> rfl

/-- Settles O46: the frame says that a register a step changed was written inside the range; after reset the registers
hold bytes. -/
theorem registersStayInTheirRange : Obligations.RegistersStayInTheirRange := by
  refine ⟨fun c s t hrange hs q => ?_, fun c hc q => inRange_of_byte hc ?_⟩
  · obtain ⟨_, rfl⟩ | ⟨_, _, _, rfl⟩ | ⟨h, _, hex⟩ := stepWith_eq_next hs
    · exact hrange q
    · exact hrange q
    · obtain hq | ⟨_, hq⟩ := (execWith_instrAt_frame hex).regs q
      · rw [hq]
        exact hrange q
      · exact hq
  · rw [reset_reg]
    split <;> decide

/-! ### Reset, load and launch -/

/-- Settles O43: the reset state evaluated. -/
theorem resetLeavesTheStatedValues : Obligations.ResetLeavesTheStatedValues :=
  ⟨reset_reg, fun _ => rfl, rfl, rfl, rfl, rfl, rfl⟩

/-- Settles O44: memory by `State.reset_mem_wf`, no record and not Faulted. -/
theorem resetMeetsTheInvariant : Obligations.ResetMeetsTheInvariant :=
  ⟨State.reset_mem_wf, by decide⟩

/-- A load that fits places the bytes (R204). -/
theorem loadBulk_of_fits {s : State} {bytes : List Byte} {start : Int} (h0 : 0 ≤ start)
    (h1 : start + (bytes.length : Int) ≤ 256) : s.loadBulk bytes start = .ok (s.place start bytes) :=
  if_neg (by omega)

/-- Settles O57: the refusing branch, and the laws of `State.place` for the other. -/
theorem loadBulkFollowsItsRule : Obligations.LoadBulkFollowsItsRule := fun s bytes start =>
  ⟨fun hout => if_pos hout, fun h0 h1 hwf =>
    ⟨_, loadBulk_of_fits h0 h1, State.place_eq bytes s start, State.place_wf bytes s start hwf h0 h1,
      fun i hi => State.place_read_inside bytes s start i hwf h0 h1 hi,
      fun a ha => State.place_read_outside bytes s start a h0 ha⟩⟩

/-- The launch state of an image that fits is the reset state with the image placed (R205). -/
theorem launch_of_fits {image : List Byte} (h : image.length ≤ 256) :
    State.launch image = .ok (State.reset.place 0 image).invokeRun := by
  rw [State.launch, loadBulk_of_fits le_rfl (by omega)]

/-- An image that does not fit is refused (R204, R205). -/
theorem length_of_launch_ok {image : List Byte} {s : State} (h : State.launch image = .ok s) : image.length ≤ 256 := by
  by_contra hlong
  rw [State.launch, State.loadBulk, if_pos (by omega)] at h
  cases h

/-- Settles O58: `launch_of_fits`; placing the image changes nothing but memory. -/
theorem launchStateFollowsItsRule : Obligations.LaunchStateFollowsItsRule := by
  intro image hlen
  have hplace := State.place_eq image State.reset 0
  have hx : (State.reset.place 0 image).x = Regs.reset := congrArg State.x hplace
  refine ⟨_, launch_of_fits hlen, fun q hq => ?_, ?_, congrArg State.pc hplace, congrArg State.ir hplace,
    congrArg State.fault hplace, congrArg State.out hplace, rfl, fun i hi => ?_, fun a ha => ?_⟩
  · exact (congrArg (Regs.get · q) hx).trans ((reset_reg q).trans (if_neg hq))
  · exact congrArg (Regs.get · .r7) hx
  · have hin := State.place_read_inside image State.reset 0 i State.reset_mem_wf le_rfl (by omega) hi
    rwa [Int.toNat_zero, Nat.zero_add] at hin
  · exact State.place_read_outside image State.reset 0 a le_rfl (by omega)

/-- A launch state meets the invariant. -/
theorem inv_of_launch {image : List Byte} {s : State} (h : State.launch image = .ok s) : s.Inv := by
  have hlen := length_of_launch_ok h
  rw [launch_of_fits hlen] at h
  cases h
  have hfault : (State.reset.place 0 image).fault = none := congrArg State.fault (State.place_eq image State.reset 0)
  refine ⟨State.place_wf image State.reset 0 State.reset_mem_wf le_rfl (by omega), ?_⟩
  simp [State.invokeRun, hfault]

/-- Settles O59: the launch state meets the invariant (`inv_of_launch`), and every step keeps it. -/
theorem reachableStatesMeetTheInvariant : Obligations.ReachableStatesMeetTheInvariant := by
  rintro t ⟨image, s, k, hlaunch, hrun⟩
  exact runsTo_keeps State.Inv stepKeepsTheInvariant k s t (inv_of_launch hlaunch) hrun

end Sys2Proof.Machine
end

section
/-! What each instruction does, run forward (R120 to R161): one equation for each sequence of numbered steps once its
operands and registers are known, and from it the completing and the faulting statements of the instructions. -/
namespace Sys2Proof.Machine

/-! ### LDI, PRN, HLT -/

/-- Settles O18: the numbered steps of LDI, with the register named. -/
theorem ldiLoadsTheImmediate : Obligations.LdiLoadsTheImmediate := by
  intro s r imm R hR
  calc exec (.ldi (.byte r) (.byte imm)) s
      = s.attempt (writeReg Config.default s r (imm.toNat : Int)) advance := rfl
    _ = .next ((s.setReg R (imm.toNat : Int)).setPc s.nextPc) := by
      rw [writeReg_of_index _ _ _ _ R hR, writeSlot_default, State.attempt_ok, advance, State.setReg_nextPc]

/-- Settles O19: the numbered steps of PRN, with the register named. -/
theorem prnEmitsTheRegister : Obligations.PrnEmitsTheRegister := by
  intro s r R hR
  calc exec (.prn (.byte r)) s
      = s.attempt (readReg s r) (fun v => advance (s.emit v)) := rfl
    _ = .next ((s.emit (s.reg R)).setPc s.nextPc) := by
      rw [readReg_of_index s r R hR, State.attempt_ok, advance, State.emit_nextPc]

/-- Settles O20: the one state that `hltSteps` answers. -/
theorem hltHaltsAndAdvances : Obligations.HltHaltsAndAdvances := hltSteps_eq

/-! ### The ALU instructions -/

theorem execWith_alu (c : Config) (op : AluOp) (a b : Operand) (s : State) :
    execWith c (op.instr a b) s = aluSteps c op (fetchedOperand a 1) (fetchedOperand b 2) s := by
  cases op <;> rfl

theorem exec_alu (op : AluOp) (a b : Operand) (s : State) :
    exec (op.instr a b) s = aluSteps Config.default op (fetchedOperand a 1) (fetchedOperand b 2) s := by
  rw [exec_eq_execWith, execWith_alu]

/-- R130 with both operands obtained and both registers named: the divisor check, then the write of the exact result. -/
theorem aluSteps_of_index {c : Config} {op : AluOp} {op1 op2 : OperandReader} {s : State} {ra rb : Byte} {A B : Reg}
    (h1 : op1 s = .ok ra) (h2 : op2 s = .ok rb) (hA : Reg.ofIndex ra.toNat = some A)
    (hB : Reg.ofIndex rb.toNat = some B) (hdiv : op.divides = true → s.reg B ≠ 0) :
    aluSteps c op op1 op2 s = s.attempt (writeSlot c s A (op.apply c (s.reg A) (s.reg B))) advance := by
  obtain ⟨hd, hzero, _⟩ | ⟨_, hcheck⟩ := checkDivisor_cases op rb (s.reg B)
  · exact absurd hzero (hdiv hd)
  · simp only [aluSteps, h1, h2, State.attempt_ok, readReg_of_index s ra A hA, readReg_of_index s rb B hB, hcheck,
      writeReg_of_index c s ra _ A hA]

/-- R131 to R136 under the default parameters, in which every result fits. -/
theorem exec_alu_of_index {op : AluOp} {s : State} {ra rb : Byte} {A B : Reg} (hA : Reg.ofIndex ra.toNat = some A)
    (hB : Reg.ofIndex rb.toNat = some B) (hdiv : op.divides = true → s.reg B ≠ 0) :
    exec (op.instr (.byte ra) (.byte rb)) s =
      .next ((s.setReg A (op.apply Config.default (s.reg A) (s.reg B))).setPc s.nextPc) := by
  rw [exec_alu, aluSteps_of_index rfl rfl hA hB hdiv, writeSlot_default, State.attempt_ok, advance, State.setReg_nextPc]

/-- R130 step 5 for a divisor register that holds 0. -/
theorem exec_alu_of_divisor_zero {op : AluOp} {s : State} {ra rb : Byte} {A B : Reg} (hdiv : op.divides = true)
    (hA : Reg.ofIndex ra.toNat = some A) (hB : Reg.ofIndex rb.toNat = some B) (hzero : s.reg B = 0) :
    exec (op.instr (.byte ra) (.byte rb)) s = .next (s.faultedBy (.divisionByZero rb)) := by
  rw [exec_alu]
  exact aluSteps_of_divisor_zero hdiv rfl rfl hA hB hzero

/-- Settles O21: `exec_alu_of_index` for the three operations without a divisor. -/
theorem addSubMulAreExact : Obligations.AddSubMulAreExact := fun _ _ _ _ _ hA hB =>
  ⟨exec_alu_of_index (op := .add) hA hB nofun, exec_alu_of_index (op := .sub) hA hB nofun,
    exec_alu_of_index (op := .mul) hA hB nofun⟩

/-- The remainder of floor division by a negative number lies between the number and 0 (R135). -/
theorem fmod_of_neg (a : Int) {b : Int} (hb : b < 0) : b < a.fmod b ∧ a.fmod b ≤ 0 := by
  have hneg : (-a).fmod (-b) = -a.fmod b := Int.neg_fmod_neg a b
  have h0 := Int.fmod_nonneg_of_pos (-a) (b := -b) (by omega)
  have h1 := Int.fmod_lt_of_pos (-a) (b := -b) (by omega)
  omega

/-- Settles O22: the model's quotient is `Int.fdiv` and its remainder `Int.fmod`. -/
theorem divModAreFloorDivision : Obligations.DivModAreFloorDivision := by
  intro s ra rb A B hA hB hb
  have hmod : AluOp.mod.apply Config.default (s.reg A) (s.reg B) = (s.reg A).fmod (s.reg B) :=
    (Int.fmod_def _ _).symm
  refine ⟨(s.reg A).fdiv (s.reg B), (s.reg A).fmod (s.reg B), (Int.mul_fdiv_add_fmod _ _).symm,
    fun hpos => ⟨Int.fmod_nonneg_of_pos _ hpos, Int.fmod_lt_of_pos _ hpos⟩, fun hneg => fmod_of_neg _ hneg,
    exec_alu_of_index (op := .div) hA hB fun _ => hb, ?_⟩
  rw [← hmod]
  exact exec_alu_of_index (op := .mod) hA hB fun _ => hb

/-- Settles O23: the five operations with both operands one integer. -/
theorem aluWithOneRegisterTwice : Obligations.AluWithOneRegisterTwice := by
  intro s r R hR put
  have hput : ∀ {op : AluOp} {v : Int}, (op.divides = true → s.reg R ≠ 0) →
      op.apply Config.default (s.reg R) (s.reg R) = v → exec (op.instr (.byte r) (.byte r)) s = put v :=
    fun hdiv hv => (exec_alu_of_index hR hR hdiv).trans (by rw [hv]; rfl)
  refine ⟨hput (op := .add) nofun (two_mul _).symm, hput (op := .sub) nofun (sub_self _), hput (op := .mul) nofun rfl,
    fun hne => ⟨hput (op := .div) (fun _ => hne) (Int.fdiv_self hne), hput (op := .mod) (fun _ => hne) ?_⟩,
    fun hzero => ⟨exec_alu_of_divisor_zero (op := .div) rfl hR hR hzero,
      exec_alu_of_divisor_zero (op := .mod) rfl hR hR hzero⟩⟩
  exact (Int.fmod_def _ _).symm.trans Int.fmod_self

/-- The bounds that REG_MIN and REG_MAX set (R24). -/
theorem inRange_iff {c : Config} {v : Int} :
    inRange c v = true ↔ (∀ m, c.regMin = some m → m ≤ v) ∧ ∀ m, c.regMax = some m → v ≤ m := by
  simp [inRange, Option.all_eq_true]

/-- Settles O47: the write of the exact result, inside and outside the range. -/
theorem finiteRangeAluFaults : Obligations.FiniteRangeAluFaults := by
  intro c s op ra rb A B hA hB hdiv v
  have hsteps : execWith c (op.instr (.byte ra) (.byte rb)) s = s.attempt (writeSlot c s A v) advance := by
    rw [execWith_alu]
    exact aluSteps_of_index rfl rfl hA hB hdiv
  obtain ⟨hr, hw⟩ | ⟨hr, hw⟩ := writeSlot_cases c s A v
  · rw [hsteps, hw]
    refine ⟨fun _ _ => rfl, fun hout => ?_⟩
    obtain ⟨hmin, hmax⟩ := inRange_iff.1 hr
    obtain ⟨m, hm, hlt⟩ | ⟨m, hm, hlt⟩ := hout
    · exact absurd (hmin m hm) (by omega)
    · exact absurd (hmax m hm) (by omega)
  · rw [hsteps, hw]
    refine ⟨fun hmin hmax => ?_, fun _ => rfl⟩
    exact absurd (hr.symm.trans (inRange_iff.2 ⟨hmin, hmax⟩)) Bool.false_ne_true

/-- Settles O49: with DIV_ROUND = truncate the quotient is `Int.tdiv` and the remainder `Int.tmod`. -/
theorem truncatingDivision : Obligations.TruncatingDivision := by
  intro c a b hround hb
  have hdiv : AluOp.div.apply c a b = a.tdiv b := by simp only [AluOp.apply, hround, quotient]
  have hmod : AluOp.mod.apply c a b = a.tmod b := by simp only [AluOp.apply, hround, quotient, Int.tmod_def]
  rw [hdiv, hmod]
  refine ⟨(Int.mul_tdiv_add_tmod a b).symm, ?_, Int.tmod_nonneg b, fun ha => ?_⟩
  · rw [Int.abs_eq_natAbs, Int.abs_eq_natAbs, Int.natAbs_tmod, Int.ofNat_lt]
    exact Nat.mod_lt _ (Int.natAbs_pos.2 hb)
  · have hneg := Int.tmod_nonneg b (Int.neg_nonneg_of_nonpos ha)
    rw [Int.neg_tmod] at hneg
    omega

/-! ### The stack instructions, for any parameters -/

theorem writeSlot_of_inRange {c : Config} {v : Int} (s : State) (R : Reg) (hr : inRange c v = true) :
    writeSlot c s R v = .ok (s.setReg R v) :=
  if_pos hr

theorem writeSlot_of_not_inRange {c : Config} {v : Int} (s : State) (R : Reg) (hr : inRange c v = false) :
    writeSlot c s R v = .error (.valueOutOfRange v) :=
  if_neg (Bool.not_eq_true _ ▸ hr)

section
variable {c : Config} {op1 : OperandReader} {s : State}

/-- PUSH once the decremented pointer fits a register (R150). -/
theorem pushSteps_of_inRange (hr : inRange c s.pushSlot = true) :
    pushSteps c op1 s = s.pushed.attempt (op1 s.pushed) fun r => s.pushed.attempt (readReg s.pushed r) fun v =>
      s.pushed.attempt (memWrite s.pushed s.pushSlot v) advance := by
  simp only [pushSteps, writeSlot_of_inRange s .r7 hr, State.attempt_ok, State.reg_setReg_same, State.pushed]

/-- CALL once the decremented pointer fits a register (R160). -/
theorem callSteps_of_inRange (hr : inRange c s.pushSlot = true) :
    callSteps c op1 s = s.pushed.attempt (memWrite s.pushed s.pushSlot s.nextPc) fun s2 =>
      s2.attempt (op1 s2) fun r => s2.attempt (readReg s2 r) fun t => .next (s2.setPc t) := by
  simp only [callSteps, writeSlot_of_inRange s .r7 hr, State.attempt_ok, State.reg_setReg_same, State.pushed,
    State.setReg_nextPc]

/-- A decremented pointer that fits no register stops PUSH and CALL at their first step (R24). -/
theorem pushSteps_of_not_inRange (hr : inRange c s.pushSlot = false) :
    pushSteps c op1 s = .next (s.faultedBy (.valueOutOfRange s.pushSlot)) := by
  rw [pushSteps, writeSlot_of_not_inRange s .r7 hr, State.attempt_error, State.raise_eq]

theorem callSteps_of_not_inRange (hr : inRange c s.pushSlot = false) :
    callSteps c op1 s = .next (s.faultedBy (.valueOutOfRange s.pushSlot)) := by
  rw [callSteps, writeSlot_of_not_inRange s .r7 hr, State.attempt_error, State.raise_eq]

/-- POP once the stack read succeeded and the operand byte is obtained (R151). -/
theorem popSteps_of_valid {r : Byte} (ha : validAddress s.popSlot) (hop : op1 s = .ok r) :
    popSteps c op1 s = s.attempt (writeReg c s r ((s.cell s.popSlot).toNat : Int)) fun s1 =>
      s1.attempt (writeSlot c s1 .r7 (s1.reg .r7 + 1)) advance := by
  simp only [popSteps, memRead_of_valid s _ ha, hop, State.attempt_ok]

/-- RET once the stack read succeeded (R161). -/
theorem retSteps_of_valid (ha : validAddress s.popSlot) :
    retSteps c s = s.attempt (writeSlot c s .r7 (s.reg .r7 + 1)) fun s1 =>
      .next (s1.setPc ((s.cell s.popSlot).toNat : Int)) := by
  simp only [retSteps, memRead_of_valid s _ ha, State.attempt_ok]

/-- A stack pointer that names no cell stops POP and RET at their first step (R63). -/
theorem popSteps_of_invalid (ha : ¬ validAddress s.popSlot) :
    popSteps c op1 s = .next (s.faultedBy (.outOfBounds s.popSlot)) := by
  simp only [popSteps, memRead_of_invalid s _ ha, State.attempt_error, State.raise_eq]

theorem retSteps_of_invalid (ha : ¬ validAddress s.popSlot) :
    retSteps c s = .next (s.faultedBy (.outOfBounds s.popSlot)) := by
  simp only [retSteps, memRead_of_invalid s _ ha, State.attempt_error, State.raise_eq]

end

/-- Settles O48: the first step of PUSH and CALL and the last of POP and RET, at a pointer outside the range. -/
theorem finiteRangeStackPointerFaults : Obligations.FiniteRangeStackPointerFaults := by
  intro c s r R hc hR
  refine ⟨fun hr => ⟨pushSteps_of_not_inRange hr, callSteps_of_not_inRange hr⟩, fun ha hr => ⟨?_, fun hne => ?_⟩⟩
  · calc execWith c .ret s = retSteps c s := rfl
      _ = s.raise (.valueOutOfRange (s.reg .r7 + 1)) := by
        rw [retSteps_of_valid ha, writeSlot_of_not_inRange s .r7 hr, State.attempt_error]
  · have hbyte : inRange c ((s.cell s.popSlot).toNat : Int) = true :=
      inRange_of_byte hc ⟨by omega, by have := (s.cell s.popSlot).isLt; omega⟩
    have hsp : (s.popped R).reg .r7 = s.reg .r7 := (s.reg_setReg R .r7 _).trans (if_neg (Ne.symm hne))
    calc execWith c (.pop (.byte r)) s = popSteps c (fetchedOperand (.byte r) 1) s := rfl
      _ = (s.popped R).attempt (writeSlot c (s.popped R) .r7 ((s.popped R).reg .r7 + 1)) advance := by
        rw [popSteps_of_valid ha (fetchedOperand_byte r 1 s), writeReg_of_index c s r _ R hR,
          writeSlot_of_inRange s R hbyte, State.attempt_ok, State.popped]
      _ = (s.popped R).raise (.valueOutOfRange (s.reg .r7 + 1)) := by
        rw [hsp, writeSlot_of_not_inRange _ .r7 hr, State.attempt_error]

/-! ### The stack instructions, under the default parameters -/

/-- What PUSH stores: the register's value, for R7 the decremented pointer (R150). -/
theorem reg_pushed (s : State) (R : Reg) : s.pushed.reg R = if R = .r7 then s.pushSlot else s.reg R :=
  s.reg_setReg .r7 R _

/-- PUSH: the stack pointer is decremented, and then the operand byte is read. -/
theorem exec_push (s : State) (o : Operand) :
    exec (.push o) s = s.pushed.attempt (fetchedOperand o 1 s.pushed) fun r =>
      s.pushed.attempt (readReg s.pushed r) fun v => s.pushed.attempt (memWrite s.pushed s.pushSlot v) advance :=
  pushSteps_of_inRange (inRange_default _)

/-- PUSH of a register: one memory write, at the decremented pointer. -/
theorem exec_push_of_index {s : State} {r : Byte} {R : Reg} (hR : Reg.ofIndex r.toNat = some R) :
    exec (.push (.byte r)) s = s.pushed.attempt (memWrite s.pushed s.pushSlot (s.pushed.reg R)) advance := by
  rw [exec_push, fetchedOperand_byte, State.attempt_ok, readReg_of_index _ r R hR, State.attempt_ok]

/-- PUSH of a byte to a cell completes. -/
theorem exec_push_of_byte {s : State} {r : Byte} {R : Reg} (hR : Reg.ofIndex r.toNat = some R)
    (ha : validAddress s.pushSlot) (hv : 0 ≤ s.pushed.reg R ∧ s.pushed.reg R ≤ 255) :
    exec (.push (.byte r)) s =
      .next ((s.pushed.setCell s.pushSlot (BitVec.ofNat 8 (s.pushed.reg R).toNat)).setPc s.nextPc) := by
  rw [exec_push_of_index hR, memWrite_of_byte ha hv]
  rfl

/-- CALL: one memory write, at the decremented pointer, and then the operand byte. -/
theorem exec_call (s : State) (o : Operand) :
    exec (.call o) s = s.pushed.attempt (memWrite s.pushed s.pushSlot s.nextPc) fun s2 =>
      s2.attempt (callOperand o s2) fun r => s2.attempt (readReg s2 r) fun t => .next (s2.setPc t) :=
  callSteps_of_inRange (inRange_default _)

/-- POP into a register: the byte, and then the incremented pointer. -/
theorem exec_pop_of_index {s : State} {r : Byte} {R : Reg} (hR : Reg.ofIndex r.toNat = some R)
    (ha : validAddress s.popSlot) :
    exec (.pop (.byte r)) s =
      .next (((s.popped R).setReg .r7 ((s.popped R).reg .r7 + 1)).setPc s.nextPc) := by
  calc exec (.pop (.byte r)) s = popSteps Config.default (fetchedOperand (.byte r) 1) s := rfl
    _ = (s.popped R).attempt (writeSlot Config.default (s.popped R) .r7 ((s.popped R).reg .r7 + 1)) advance := by
      rw [popSteps_of_valid ha (fetchedOperand_byte r 1 s), writeReg_of_index _ s r _ R hR, writeSlot_default,
        State.attempt_ok, State.popped]
    _ = _ := rfl

/-- Settles O24: the state that `exec_push_of_byte` answers. -/
theorem pushStoresAtTheNewPointer : Obligations.PushStoresAtTheNewPointer := by
  intro s r R v hwf hR ha hv hbyte
  obtain rfl : s.pushed.reg R = v := (reg_pushed s R).trans hv.symm
  refine ⟨_, exec_push_of_byte hR ha hbyte, rfl, ?_, fun a hne => ?_⟩
  · rw [State.setPc_cell, State.cell_setCell_same s.pushed _ _ hwf, toNat_ofNat_of_byte hbyte]
  · exact Memory.read_write_other s.mem _ a _ (by have := ha.1; omega)

/-- Settles O25: the state that `exec_pop_of_index` answers, register by register. -/
theorem popLoadsFromThePointer : Obligations.PopLoadsFromThePointer := by
  intro s r R hR ha
  refine ⟨_, exec_pop_of_index hR ha, rfl, fun hne => ?_, ?_, fun q hq hq7 => ?_⟩
  · simp [State.popped, State.reg_setReg, hne, Ne.symm hne]
  · rintro rfl
    simp [State.popped]
  · simp [State.popped, State.reg_setReg, hq, hq7]

/-- Settles O27: the stack read and the write of the pointer succeed. -/
theorem retGoesToTheTopOfTheStack : Obligations.RetGoesToTheTopOfTheStack := by
  intro s ha
  calc exec .ret s = retSteps Config.default s := rfl
    _ = .next ((s.setReg .r7 (s.reg .r7 + 1)).setPc ((s.cell s.popSlot).toNat : Int)) := by
      rw [retSteps_of_valid ha, writeSlot_default, State.attempt_ok]

/-- The state of CALL after its store (R160). -/
def State.called (s : State) : State :=
  s.pushed.setCell s.pushSlot (BitVec.ofNat 8 s.nextPc.toNat)

/-- CALL goes on from its store when the return address is a byte. -/
theorem exec_call_of_byte {s : State} (o : Operand) (ha : validAddress s.pushSlot)
    (hv : 0 ≤ s.nextPc ∧ s.nextPc ≤ 255) :
    exec (.call o) s = s.called.attempt (callOperand o s.called) fun r =>
      s.called.attempt (readReg s.called r) fun t => .next (s.called.setPc t) := by
  rw [exec_call, memWrite_of_byte ha hv]
  rfl

/-- Where the store ends, the stack pointer now points. -/
theorem reg_called (s : State) (R : Reg) : s.called.reg R = if R = .r7 then s.pushSlot else s.reg R :=
  reg_pushed s R

/-- The operand byte CALL reads: the byte stored when the store landed on it (R83, R160). -/
theorem callOperand_called {s : State} (r : Byte) (hwf : s.mem.wf = true) (ha : validAddress s.pushSlot) :
    callOperand (.byte r) s.called =
      .ok (if s.pushSlot = s.pc + 1 then BitVec.ofNat 8 s.nextPc.toNat else r) := by
  have hsp : s.called.reg .r7 = s.pushSlot := reg_called s .r7
  split
  · next hhit =>
    have hcell : s.called.cell s.pushSlot = BitVec.ofNat 8 s.nextPc.toNat := State.cell_setCell_same s.pushed _ _ hwf
    rw [callOperand_hit _ _ (hsp.trans hhit), ← hcell, hhit]
    exact memRead_of_valid _ _ (hhit ▸ ha)
  · next hmiss => rw [callOperand_missed _ _ (by rwa [hsp]), fetchedOperand_byte]

/-- Settles O26: the store succeeds, `callOperand_called` gives the operand byte, and the target is its register. -/
theorem callPushesTheReturnAddress : Obligations.CallPushesTheReturnAddress := by
  intro s r e R hwf ha h0 h1 he hR
  have hop : callOperand (.byte r) s.called = .ok e := he ▸ callOperand_called r hwf ha
  refine ⟨s.called.setPc (if R = .r7 then s.pushSlot else s.reg R), ?_, rfl, ?_, fun a hne => ?_⟩
  · rw [exec_call_of_byte _ ha ⟨h0, h1⟩, hop, State.attempt_ok, readReg_of_index _ e R hR, State.attempt_ok, reg_called]
  · rw [State.setPc_cell, State.called, State.cell_setCell_same s.pushed _ _ hwf]
    exact toNat_ofNat_of_byte ⟨h0, h1⟩
  · exact Memory.read_write_other s.mem _ a _ (by have := ha.1; omega)

/-! ### The traps -/

/-- Settles O38: the first numbered step that reads the register file with that index raises, in the state the steps
before it left. -/
theorem invalidRegisterTraps : Obligations.InvalidRegisterTraps := by
  intro s r hr
  have hnone : Reg.ofIndex r.toNat = none := (Reg.ofIndex_eq_none_iff _).2 hr
  have hread : ∀ u, readReg u r = .error (.invalidRegister r) := fun u => readReg_of_invalid u r hnone
  have hwrite : ∀ c u v, writeReg c u r v = .error (.invalidRegister r) :=
    fun c u v => writeReg_of_invalid c u r v hnone
  refine ⟨fun imm => ?_, ?_, fun op rb => ?_, fun op ra hra => ?_, ?_, fun ha => ?_, fun ha hmiss h0 h1 => ?_⟩
  · simp only [exec, execLdi, ldiSteps, fetchedOperand_byte, State.attempt_ok, hwrite, State.attempt_error,
      State.raise_eq]
  · simp only [exec, execPrn, prnSteps, fetchedOperand_byte, State.attempt_ok, hread, State.attempt_error,
      State.raise_eq]
  · simp only [exec_alu, aluSteps, fetchedOperand_byte, State.attempt_ok, hread, State.attempt_error, State.raise_eq]
  · obtain ⟨A, hA⟩ := Reg.exists_ofIndex hra
    simp only [exec_alu, aluSteps, fetchedOperand_byte, State.attempt_ok, readReg_of_index s ra A hA, hread,
      State.attempt_error, State.raise_eq]
  · simp only [exec_push, fetchedOperand_byte, State.attempt_ok, hread, State.attempt_error, State.raise_eq,
      State.pushed]
  · simp only [exec, execPop, popSteps_of_valid ha (fetchedOperand_byte r 1 s), hwrite, State.attempt_error,
      State.raise_eq]
  · have hmissed : callOperand (.byte r) s.called = .ok r :=
      callOperand_missed _ _ (by rw [reg_called, if_pos rfl]; exact hmiss)
    rw [exec_call_of_byte _ ha ⟨h0, h1⟩, hmissed, State.attempt_ok, hread, State.attempt_error, State.raise_eq]
    rfl

/-- Settles O40: the answers of `memWrite` in PUSH and CALL, and of `memRead` in POP and RET. -/
theorem stackAccessTraps : Obligations.StackAccessTraps := by
  intro s r R hR v back
  have hval : s.pushed.reg R = v := reg_pushed s R
  refine ⟨fun ha => ⟨?_, ?_⟩, fun ha hv => ?_, fun ha hv => ?_, fun ha =>
    ⟨popSteps_of_invalid ha, retSteps_of_invalid ha⟩⟩
  · rw [exec_push_of_index hR, memWrite_of_invalid _ ha]
    rfl
  · rw [exec_call, memWrite_of_invalid _ ha]
    rfl
  · rw [exec_push_of_index hR, hval, memWrite_of_not_byte ha ((not_validAddress_iff v).2 hv)]
    rfl
  · rw [exec_call, memWrite_of_not_byte ha ((not_validAddress_iff s.nextPc).2 hv)]
    rfl

/-- The instructions with two operand bytes ask for them first, in address order. -/
theorem execWith_instrOf_arity_two {h : Handler} (hh : h.arity = 2) (c : Config) (a b : Operand) (s : State) :
    ∃ k : Byte → Byte → Result, execWith c (instrOf h a b) s =
      s.attempt (fetchedOperand a 1 s) fun ra => s.attempt (fetchedOperand b 2 s) (k ra) := by
  cases h with
  | ldi | add | sub | mul | div | mod => exact ⟨_, rfl⟩
  | prn | hlt | push | pop | call | ret => cases hh

/-- R63 for the instructions with two operand bytes: at 255 the first lies past the end of memory, at 254 the second. -/
theorem step_of_operand_past_memory {s : State} {b : Byte} {h : Handler} (hf : s.Fetches b)
    (hl : lookup Config.default b = some h) (hh : h.arity = 2) (hpc : s.pc = 254 ∨ s.pc = 255) :
    step s = .next ((s.setIr b).faultedBy (.outOfBounds 256)) := by
  obtain ⟨k, hk⟩ := execWith_instrOf_arity_two hh Config.default (s.operandAt 1) (s.operandAt 2) (s.setIr b)
  rw [step_eq_stepWith, stepWith_eq_execWith hf hl, State.instrAt, hk]
  obtain hpc | hpc := hpc
  · rw [State.operandAt_of_valid (k := 1) (by rw [hpc]; decide),
      State.operandAt_of_invalid (k := 2) (by rw [hpc]; decide), fetchedOperand_byte, State.attempt_ok,
      fetchedOperand_beyond, State.attempt_error, State.setIr_pc, hpc]
    rfl
  · rw [State.operandAt_of_invalid (k := 1) (by rw [hpc]; decide), fetchedOperand_beyond, State.attempt_error,
      State.setIr_pc, hpc]
    rfl

/-- At 255 the operand byte of an instruction is missing (R63). -/
theorem fetchedOperand_past_memory {s : State} (u : State) (hpc : s.pc = 255) (hu : u.pc = s.pc) :
    fetchedOperand (s.operandAt 1) 1 u = .error (.outOfBounds 256) := by
  rw [State.operandAt_of_invalid (by rw [hpc]; decide), fetchedOperand_beyond, hu, hpc]
  rfl

/-- PRN at 255 (R63, R121). -/
theorem step_prn_past_memory {s : State} (hf : s.Fetches 0x47#8) (hpc : s.pc = 255) :
    step s = .next ((s.setIr 0x47#8).faultedBy (.outOfBounds 256)) := by
  calc step s = prnSteps (fetchedOperand (s.operandAt 1) 1) (s.setIr 0x47#8) := step_eq_exec (h := .prn) hf rfl
    _ = _ := by
      rw [prnSteps, fetchedOperand_past_memory (s.setIr 0x47#8) hpc rfl, State.attempt_error, State.raise_eq]

/-- PUSH at 255, with the stack pointer decremented (R63, R150). -/
theorem step_push_past_memory {s : State} (hf : s.Fetches 0x45#8) (hpc : s.pc = 255) :
    step s = .next (((s.setIr 0x45#8).setReg .r7 s.pushSlot).faultedBy (.outOfBounds 256)) := by
  calc step s = exec (.push (s.operandAt 1)) (s.setIr 0x45#8) := step_eq_exec (h := .push) hf rfl
    _ = _ := by
      rw [exec_push, fetchedOperand_past_memory (s.setIr 0x45#8).pushed hpc rfl,
        State.attempt_error, State.raise_eq, State.pushed, State.setIr_pushSlot]

/-- POP at 255, after a stack read that succeeded (R63, R151). -/
theorem step_pop_past_memory {s : State} (hf : s.Fetches 0x46#8) (hpc : s.pc = 255) (ha : validAddress s.popSlot) :
    step s = .next ((s.setIr 0x46#8).faultedBy (.outOfBounds 256)) := by
  calc step s = popSteps Config.default (fetchedOperand (s.operandAt 1) 1) (s.setIr 0x46#8) :=
        step_eq_exec (h := .pop) hf rfl
    _ = _ := by
      rw [popSteps, State.setIr_popSlot, memRead_of_valid _ _ ha, State.attempt_ok,
        fetchedOperand_past_memory (s.setIr 0x46#8) hpc rfl, State.attempt_error, State.raise_eq]

/-- Settles O39: `step_of_operand_past_memory` for the handlers with two operand bytes; PRN, PUSH and POP at 255. -/
theorem operandPastMemoryTraps : Obligations.OperandPastMemoryTraps := by
  refine fun s _ => ⟨fun b hf hb hpc => ?_, step_prn_past_memory, step_push_past_memory, step_pop_past_memory⟩
  have hmap : [0x82, 0xA0, 0xA1, 0xA2, 0xA3, 0xA4] =
      [Handler.ldi, .add, .sub, .mul, .div, .mod].map fun h => (h.opcode Config.default).toNat := rfl
  have harity : ∀ g ∈ [Handler.ldi, .add, .sub, .mul, .div, .mod], g.arity = 2 := by decide
  rw [hmap] at hb
  obtain ⟨h, hmem, hop⟩ := List.mem_map.1 hb
  obtain rfl := BitVec.eq_of_toNat_eq hop
  exact step_of_operand_past_memory hf (lookup_opcode _ h Config.default_valid) (harity h hmem) hpc

end Sys2Proof.Machine
end

section
/-! The decimal text of the output channel (R33): `decimalDigits` writes the digits of Mathlib's `Nat.digits`, most
significant first, and its laws give those of the text. -/
namespace Sys2Proof.Machine

theorem toNat_digitByte {d : Nat} (h : d < 10) : (digitByte d).toNat = 0x30 + d := by
  rw [digitByte, BitVec.toNat_ofNat]
  exact Nat.mod_eq_of_lt (by omega)

/-- With fuel above a positive number, its digits are written in front, most significant first. -/
theorem decimalDigits_eq (fuel n : Nat) (acc : List Byte) (hfuel : n < fuel) (hn : 0 < n) :
    decimalDigits fuel n acc = (Nat.digits 10 n).reverse.map digitByte ++ acc := by
  induction fuel generalizing n acc with
  | zero => omega
  | succ fuel ih =>
    rw [decimalDigits]
    split
    · next hlt =>
      rw [Nat.digits_of_lt 10 n (by omega) hlt, List.reverse_singleton, List.map_singleton, List.singleton_append]
    · next hge =>
      rw [ih (n / 10) _ (by omega) (by omega), Nat.digits_def' (by decide) hn, List.reverse_cons, List.map_append,
        List.map_singleton, List.append_assoc, List.singleton_append]

/-- The text of a positive number is its digits. -/
theorem decimalText_natCast {n : Nat} (hn : 0 < n) :
    decimalText (n : Int) = (Nat.digits 10 n).reverse.map digitByte := by
  have hpos : ¬ ((n : Int) < 0) := by omega
  rw [decimalText, if_neg hpos, Int.natAbs_natCast, decimalDigits_eq (n + 1) n [] (by omega) hn, List.append_nil]

/-- Reading the bytes of digits from the left is reading the digits as a number (R33). -/
theorem foldl_digitBytes {ds : List Nat} (h : ∀ d ∈ ds, d < 10) :
    (ds.reverse.map digitByte).foldl (fun acc b => 10 * acc + (b.toNat - 0x30)) 0 = Nat.ofDigits 10 ds := by
  induction ds with
  | nil => rfl
  | cons d ds ih =>
    have hd : (digitByte d).toNat = 0x30 + d := toNat_digitByte (h d List.mem_cons_self)
    rw [List.reverse_cons, List.map_append, List.foldl_append, ih fun e he => h e (List.mem_cons_of_mem d he),
      List.map_singleton, List.foldl_cons, List.foldl_nil, hd, Nat.ofDigits_cons]
    omega

/-- The first digit of a positive number is not 0. -/
theorem head?_decimalText_ne_zero {n : Nat} (hn : 0 < n) : (decimalText (n : Int)).head? ≠ some 0x30#8 := by
  have hne : Nat.digits 10 n ≠ [] := Nat.digits_ne_nil_iff_ne_zero.2 (by omega)
  have hlast : (Nat.digits 10 n).getLast hne ≠ 0 := Nat.getLast_digit_ne_zero 10 (by omega)
  have hlt : (Nat.digits 10 n).getLast hne < 10 := Nat.digits_lt_base (by decide) (List.getLast_mem hne)
  rw [decimalText_natCast hn, List.head?_map, List.head?_reverse, List.getLast?_eq_getLast_of_ne_nil hne]
  intro hzero
  have hbyte := congrArg BitVec.toNat (Option.some.inj hzero)
  rw [toNat_digitByte hlt] at hbyte
  exact hlast (by simpa using hbyte)

/-- The text of a natural number spells it in decimal digits (R33). -/
theorem decimalText_spells (n : Nat) :
    (∀ b ∈ decimalText (n : Int), 0x30 ≤ b.toNat ∧ b.toNat ≤ 0x39) ∧
      (decimalText (n : Int)).foldl (fun acc b => 10 * acc + (b.toNat - 0x30)) 0 = n := by
  obtain rfl | hn := Nat.eq_zero_or_pos n
  · decide
  have hdigit : ∀ d ∈ Nat.digits 10 n, d < 10 := fun d => Nat.digits_lt_base (by decide)
  rw [decimalText_natCast hn, foldl_digitBytes hdigit, Nat.ofDigits_digits]
  refine ⟨fun b hb => ?_, rfl⟩
  obtain ⟨d, hd, rfl⟩ := List.mem_map.1 hb
  have hlt := hdigit d (List.mem_reverse.1 hd)
  rw [toNat_digitByte hlt]
  omega

/-- The text of a negative number is a minus sign and the text of its absolute value (R33, D11). -/
theorem decimalText_neg {v : Int} (hv : 0 < v) : decimalText (-v) = 0x2D#8 :: decimalText v := by
  have hneg : -v < 0 := by omega
  have hpos : ¬ v < 0 := by omega
  simp only [decimalText, if_pos hneg, if_neg hpos, Int.natAbs_neg]

/-- Settles O53: `decimalText_spells`, `head?_decimalText_ne_zero` and `decimalText_neg`. -/
theorem decimalTextSpellsTheInteger : Obligations.DecimalTextSpellsTheInteger := by
  refine ⟨fun n => ?_, rfl, fun n => decimalText_neg (by omega)⟩
  obtain ⟨hdigits, hvalue⟩ := decimalText_spells n
  exact ⟨hdigits, hvalue, fun hne => head?_decimalText_ne_zero (Nat.pos_of_ne_zero hne)⟩

end Sys2Proof.Machine
end

section
/-! Whole steps and short runs (R33, R61, R105, R120, R121, R152, R162): the step at an opcode byte whose operand bytes
lie inside memory, then one or two such steps, then the bound on a run without CALL and RET. -/
namespace Sys2Proof.Machine

/-! ### Steps with operand bytes inside memory -/

/-- The step of an instruction whose first operand byte lies inside memory. -/
theorem step_eq_exec_byte {s : State} {b : Byte} {h : Handler} (hf : s.Fetches b)
    (hl : lookup Config.default b = some h) (hpc : s.pc ≤ 254) :
    step s = exec (instrOf h (.byte (s.cell (s.pc + 1))) (s.operandAt 2)) (s.setIr b) := by
  have hv : validAddress (s.pc + ((1 : Nat) : Int)) := ⟨by have := hf.pcValid.1; omega, by omega⟩
  rw [step_eq_exec hf hl, State.instrAt, State.operandAt_of_valid hv, Nat.cast_one]

/-- The address after an instruction whose opcode byte spells `n` operand bytes (R81). -/
theorem nextPc_setIr (s : State) (b : Byte) {n : Nat} (h : nops b = n) :
    (s.setIr b).nextPc = s.pc + ((n + 1 : Nat) : Int) := by
  rw [State.setIr_nextPc, h, Nat.cast_succ, add_assoc]

theorem runsTo_two {s t u : State} (h1 : step s = .next t) (h2 : step t = .next u) : RunsTo 2 s u :=
  runsTo_snoc 1 s t u (runsTo_snoc 0 s s t ((runsTo_zero s s).2 rfl) h1) h2

/-- One more integer in the output is one more line of its byte text (R33). -/
theorem outBytes_of_append {s t : State} {v : Int} (h : t.out = s.out ++ [v]) :
    t.outBytes = s.outBytes ++ decimalText v ++ [0x0A#8] := by
  rw [State.outBytes, h, List.flatMap_append, List.flatMap_singleton, outputLine, State.outBytes, List.append_assoc]

/-- PRN as a step, with its register named (R121). -/
theorem step_prn {s : State} {R : Reg} (hf : s.Fetches 0x47#8) (hpc : s.pc ≤ 254)
    (hR : Reg.ofIndex (s.cell (s.pc + 1)).toNat = some R) :
    step s = .next { s with ir := 0x47#8, out := s.out ++ [s.reg R], pc := s.pc + 2 } := by
  have hnext : s.pc + (nops 0x47#8 : Int) + 1 = s.pc + 2 := nextPc_setIr s 0x47#8 (n := 1) rfl
  calc step s = exec (.prn (.byte (s.cell (s.pc + 1)))) (s.setIr 0x47#8) := step_eq_exec_byte (h := .prn) hf rfl hpc
    _ = _ := by
      rw [prnEmitsTheRegister (s.setIr 0x47#8) _ R hR, State.setIr_ir, State.setIr_pc, hnext]
      rfl

/-- Settles O34: PRN at 255, with an invalid index, and with a register named. -/
theorem prnStepFollowsItsRule : Obligations.PrnStepFollowsItsRule := by
  intro s hf
  have hle : s.pc ≠ 255 → s.pc ≤ 254 := fun hpc => by have := hf.pcValid.2; omega
  refine ⟨step_prn_past_memory hf, fun hpc hidx => ?_, fun hpc R hR =>
    ⟨_, step_prn hf (hle hpc) hR, rfl, outBytes_of_append rfl⟩⟩
  exact (step_eq_exec_byte (h := .prn) hf rfl (hle hpc)).trans (invalidRegisterTraps (s.setIr 0x47#8) _ hidx).2.1

/-- LDI as a step, with its register named (R120). -/
theorem step_ldi {s : State} {R : Reg} (hf : s.Fetches 0x82#8) (hpc : s.pc ≤ 253)
    (hR : Reg.ofIndex (s.cell (s.pc + 1)).toNat = some R) :
    step s = .next (((s.setIr 0x82#8).setReg R ((s.cell (s.pc + 2)).toNat : Int)).setPc (s.pc + 3)) := by
  have hv : validAddress (s.pc + ((2 : Nat) : Int)) := ⟨by have := hf.pcValid.1; omega, by omega⟩
  have hnext : s.pc + (nops 0x82#8 : Int) + 1 = s.pc + 3 := nextPc_setIr s 0x82#8 (n := 2) rfl
  calc step s = exec (.ldi (.byte (s.cell (s.pc + 1))) (s.operandAt 2)) (s.setIr 0x82#8) :=
        step_eq_exec_byte (h := .ldi) hf rfl (by omega)
    _ = _ := by
      rw [State.operandAt_of_valid hv, ldiLoadsTheImmediate (s.setIr 0x82#8) _ _ R hR, State.setIr_ir, State.setIr_pc,
        hnext]
      rfl

/-- Settles O52: `step_ldi`, then `step_prn` of the register just written. -/
theorem ldiThenPrnEmitsTheByte : Obligations.LdiThenPrnEmitsTheByte := by
  rintro s r v hf hpc hr rfl rfl hop hsame
  obtain ⟨R, hR⟩ := Reg.exists_ofIndex hr
  have h0 := hf.pcValid.1
  have hstep := step_ldi hf (by omega) hR
  generalize ht : ((s.setIr 0x82#8).setReg R ((s.cell (s.pc + 2)).toNat : Int)).setPc (s.pc + 3) = t at hstep
  have htpc : t.pc = s.pc + 3 := ht ▸ rfl
  have hcell : ∀ a, t.cell a = s.cell a := fun a => ht ▸ rfl
  have hrun : t.status = .running := ht ▸ hf.running
  have hreg : t.reg R = ((s.cell (s.pc + 2)).toNat : Int) := by
    rw [← ht, State.setPc_reg, State.reg_setReg_same]
  have hft : t.Fetches 0x47#8 := ⟨hrun, by rw [htpc]; exact ⟨by omega, by omega⟩, by rw [hcell, htpc, hop]⟩
  have hRt : Reg.ofIndex (t.cell (t.pc + 1)).toNat = some R := by
    rw [hcell, htpc, add_assoc]
    exact hsame ▸ hR
  have hprn := step_prn hft (by omega) hRt
  have hout : t.out ++ [t.reg R] = s.out ++ [((s.cell (s.pc + 2)).toNat : Int)] := by rw [hreg, ← ht]; rfl
  exact ⟨_, runsTo_two hstep hprn, hrun, by simp only [htpc]; omega, hout, outBytes_of_append hout⟩

/-! ### PUSH and POP, CALL and RET -/

/-- PUSH as a step, with its register named and not R7 (R150): one memory write, of that register's value. -/
theorem step_push {s : State} {R : Reg} (hf : s.Fetches 0x45#8) (hpc : s.pc ≤ 254)
    (hR : Reg.ofIndex (s.cell (s.pc + 1)).toNat = some R) (hne : R ≠ .r7) :
    step s = (s.setIr 0x45#8).pushed.attempt (memWrite (s.setIr 0x45#8).pushed s.pushSlot (s.reg R)) advance := by
  have hreg : (s.setIr 0x45#8).pushed.reg R = s.reg R := (reg_pushed (s.setIr 0x45#8) R).trans (if_neg hne)
  calc step s = exec (.push (.byte (s.cell (s.pc + 1)))) (s.setIr 0x45#8) := step_eq_exec_byte (h := .push) hf rfl hpc
    _ = _ := by rw [exec_push_of_index hR, hreg, State.setIr_pushSlot]

/-- What a PUSH that completes leaves (R150): the byte at the decremented pointer, and a Running core after it. -/
structure Pushed (s : State) (v : Int) (t : State) : Prop where
  /-- the core is still Running -/
  running : t.status = .running
  /-- the pc is past the two bytes of the PUSH -/
  pc : t.pc = s.pc + 2
  /-- R7 is one less, every other register as before -/
  regs : ∀ q, t.reg q = if q = .r7 then s.pushSlot else s.reg q
  /-- the value stands at the new pointer -/
  stored : ((t.cell s.pushSlot).toNat : Int) = v
  /-- every other cell is as before -/
  cells : ∀ a, 0 ≤ a → a ≠ s.pushSlot → t.cell a = s.cell a

/-- A PUSH step that wrote its byte left the state that `Pushed` describes. -/
theorem pushed_of_memWrite {s u t : State} {v : Int} (hwf : s.mem.wf = true) (hrun : s.status = .running)
    (hw : memWrite (s.setIr 0x45#8).pushed s.pushSlot v = .ok u) (hadv : advance u = .next t) : Pushed s v t := by
  obtain ⟨ha, h0, h1, rfl⟩ := memWrite_eq_ok hw
  rw [advance_eq_next_iff] at hadv
  subst hadv
  exact {
    running := hrun
    pc := nextPc_setIr s 0x45#8 (n := 1) rfl
    regs := reg_pushed s
    stored := by
      rw [State.setPc_cell, State.cell_setCell_same (s.setIr 0x45#8).pushed _ _ hwf, toNat_ofNat_of_byte ⟨h0, h1⟩]
    cells := fun a h0 hne => State.cell_setCell_other (s.setIr 0x45#8).pushed _ a _ ha.1 h0 hne }

/-- A PUSH of a byte to a cell completes (R150). -/
theorem step_push_completes {s : State} {R : Reg} (hf : s.Fetches 0x45#8) (hwf : s.mem.wf = true) (hpc : s.pc ≤ 254)
    (hR : Reg.ofIndex (s.cell (s.pc + 1)).toNat = some R) (hne : R ≠ .r7) (ha : validAddress s.pushSlot)
    (hv : 0 ≤ s.reg R ∧ s.reg R ≤ 255) : ∃ t, step s = .next t ∧ Pushed s (s.reg R) t := by
  have hw := memWrite_of_byte (s := (s.setIr 0x45#8).pushed) ha hv
  refine ⟨_, ?_, pushed_of_memWrite hwf hf.running hw rfl⟩
  rw [step_push hf hpc hR hne, hw]
  rfl

/-- A PUSH that did not fault completed (R150). -/
theorem pushed_of_step {s t : State} {R : Reg} (hf : s.Fetches 0x45#8) (hwf : s.mem.wf = true) (hpc : s.pc ≤ 254)
    (hR : Reg.ofIndex (s.cell (s.pc + 1)).toNat = some R) (hne : R ≠ .r7) (hs : step s = .next t)
    (ht : t.status ≠ .faulted) : Pushed s (s.reg R) t := by
  rw [step_push hf hpc hR hne] at hs
  obtain ⟨_, _, he⟩ | ⟨u, hw, hadv⟩ := State.attempt_eq_next hs
  · exact absurd (status_of_raise he) ht
  · exact pushed_of_memWrite hwf hf.running hw hadv

/-- POP as a step, into a register other than R7 (R151). -/
theorem step_pop {s : State} {R : Reg} (hf : s.Fetches 0x46#8) (hpc : s.pc ≤ 254)
    (hR : Reg.ofIndex (s.cell (s.pc + 1)).toNat = some R) (hne : R ≠ .r7) (ha : validAddress s.popSlot) :
    ∃ t, step s = .next t ∧ t.status = .running ∧ t.pc = s.pc + 2 ∧
      ∀ q, t.reg q =
        if q = .r7 then s.reg .r7 + 1 else if q = R then ((s.cell s.popSlot).toNat : Int) else s.reg q := by
  have hstep : step s = exec (.pop (.byte (s.cell (s.pc + 1)))) (s.setIr 0x46#8) :=
    step_eq_exec_byte (h := .pop) hf rfl hpc
  refine ⟨_, hstep.trans (exec_pop_of_index hR ha), hf.running, nextPc_setIr s 0x46#8 (n := 1) rfl, fun q => ?_⟩
  simp only [State.setPc_reg, State.reg_setReg, State.popped, State.setIr_reg, State.setIr_cell, State.setIr_popSlot,
    if_neg (Ne.symm hne)]

/-- Settles O54: the PUSH completes and leaves the two bytes of the POP alone, which then reads the byte stored. -/
theorem pushThenPopRoundTrip : Obligations.PushThenPopRoundTrip := by
  rintro s r r' R R' hinv hf hpc rfl hop rfl hR hR' hne hne' h0 h1 ha hmiss2 hmiss3
  have hpc0 := hf.pcValid.1
  obtain ⟨t, hst, hpushed⟩ := step_push_completes hf hinv.memWf (by omega) hR hne ha ⟨h0, h1⟩
  have htpc := hpushed.pc
  have hft : t.Fetches 0x46#8 := by
    refine ⟨hpushed.running, ?_, ?_⟩
    · rw [htpc]
      exact ⟨by omega, by omega⟩
    · rw [htpc, hpushed.cells _ (by omega) (Ne.symm hmiss2), hop]
  have hRt : Reg.ofIndex (t.cell (t.pc + 1)).toNat = some R' := by
    have hnext : t.pc + 1 = s.pc + 3 := by omega
    rw [hnext, hpushed.cells _ (by omega) (Ne.symm hmiss3)]
    exact hR'
  have hslot : t.popSlot = s.pushSlot := (hpushed.regs .r7).trans (if_pos rfl)
  obtain ⟨u, htu, hrun, hupc, hregs⟩ := step_pop hft (by omega) hRt hne' (hslot ▸ ha)
  have hsp : u.reg .r7 = s.reg .r7 := by
    have hsp' : t.reg .r7 = s.reg .r7 - 1 := hslot
    rw [hregs, if_pos rfl, hsp']
    omega
  refine ⟨u, runsTo_two hst htu, hrun, by omega, ?_, hsp, fun q hq => ?_⟩
  · rw [hregs, if_neg hne', if_pos rfl, hslot, hpushed.stored]
  · by_cases hq7 : q = .r7
    · rw [hq7, hsp]
    · rw [hregs, if_neg hq7, if_neg hq, hpushed.regs, if_neg hq7]

/-- What a CALL that did not fault left (R160): the pointer one less, and the return address in its cell. -/
theorem stored_of_callSteps {c : Config} {op1 : OperandReader} {s t : State} (hwf : s.mem.wf = true)
    (hs : callSteps c op1 s = .next t) (ht : t.status ≠ .faulted) :
    validAddress s.pushSlot ∧ t.reg .r7 = s.pushSlot ∧ ((t.cell s.pushSlot).toNat : Int) = s.nextPc := by
  obtain ⟨_, he⟩ | ⟨_, _, he⟩ | ⟨_, ha, h0, h1, ⟨_, he⟩ | ⟨_, _, _, _, rfl⟩⟩ := callSteps_eq_next hs
  · exact absurd (status_of_raise he) ht
  · exact absurd (status_of_raise he) ht
  · exact absurd (status_of_raise he) ht
  · refine ⟨ha, (reg_called s .r7).trans (if_pos rfl), ?_⟩
    rw [State.setPc_cell, State.cell_setCell_same (s.setReg .r7 s.pushSlot) _ _ hwf, toNat_ofNat_of_byte ⟨h0, h1⟩]

/-- Settles O55: RET reads the address that the CALL stored (`stored_of_callSteps`). -/
theorem callThenRetRoundTrip : Obligations.CallThenRetRoundTrip := by
  intro s s1 u hinv hf hs hrun hfu hsp hcell
  rw [step_eq_stepWith, stepWith_of_call Config.default_valid hf] at hs
  obtain ⟨ha, hs1, hstored⟩ := stored_of_callSteps (s := s.setIr 0x50#8) hinv.memWf hs (by simp [hrun])
  have hslot : u.popSlot = s.pushSlot := hsp.trans hs1
  have hback : ((u.cell u.popSlot).toNat : Int) = s.pc + 2 := by
    have hsame : u.cell u.popSlot = s1.cell s.pushSlot := by
      rw [hs1] at hcell
      rw [hslot]
      exact hcell
    rw [hsame]
    exact hstored.trans (nextPc_setIr s 0x50#8 (n := 1) rfl)
  have hret : step u = exec .ret (u.setIr 0x11#8) := step_eq_exec (h := .ret) hfu rfl
  refine ⟨_, hret.trans (retGoesToTheTopOfTheStack (u.setIr 0x11#8) (hslot ▸ ha)), hfu.running, hback, ?_⟩
  calc (u.setReg .r7 (u.popSlot + 1)).reg .r7 = u.popSlot + 1 := u.reg_setReg_same .r7 _
    _ = s.reg .r7 := by rw [hslot, State.pushSlot]; omega

/-- Settles O56: the PUSH moved the pc to the cell that it wrote, and the next step fetches that cell. -/
theorem nextFetchSeesThePushedByte : Obligations.NextFetchSeesThePushedByte := by
  intro s t u R hinv hf hpc hslot hR hne hs ht hu
  have hpushed := pushed_of_step hf hinv.memWf (by omega) hR hne hs (by simp [ht])
  have htpc : t.pc = s.pushSlot := hpushed.pc.trans hslot.symm
  have hft : t.Fetches (t.cell s.pushSlot) := by
    refine ⟨ht, ?_, by rw [htpc]⟩
    have := hf.pcValid.1
    have := hpushed.pc
    exact ⟨by omega, by omega⟩
  obtain ⟨u', hu', hir⟩ := stepWith_ir Config.default hft
  rw [← step_eq_stepWith, hu] at hu'
  cases hu'
  rw [hir, hpushed.stored]

/-! ### R105: a run without CALL and RET -/

/-- A step that does not fault and runs neither CALL nor RET moves the pc up, from a cell (R104). -/
theorem pc_lt_of_step {s t : State} (hs : step s = .next t) (ht : t.status ≠ .faulted) (hcall : ¬ s.Fetches 0x50#8)
    (hret : ¬ s.Fetches 0x11#8) : validAddress s.pc ∧ s.pc < t.pc := by
  rw [step_eq_stepWith] at hs
  have hf := fetches_of_stepWith_eq_next hs ht
  obtain ⟨h, hl, hdone⟩ := stepWith_completes hf hs ht
  have hop : h.opcode Config.default = s.cell s.pc := opcode_of_lookup _ _ h hl
  have hpc : t.pc = (s.setIr (s.cell s.pc)).nextPc := by
    refine hdone.pc ?_ ?_
    · rintro rfl
      rw [← hop] at hf
      exact hcall hf
    · rintro rfl
      rw [← hop] at hf
      exact hret hf
  refine ⟨hf.pcValid, ?_⟩
  rw [hpc, State.setIr_nextPc]
  omega

/-- After `k` such steps the run has ended, or the pc has moved up by one at least in each of them. -/
theorem ended_or_pc_ge {s : State} (hrun : s.status = .running)
    (hno : ∀ k t, k ≤ 257 → RunsTo k s t → ¬ t.Fetches 0x50#8 ∧ ¬ t.Fetches 0x11#8) (k : Nat) (hk : k ≤ 257) :
    (∃ j t, j ≤ k ∧ RunsTo j s t ∧ t.Ended) ∨
      ∃ t, RunsTo k s t ∧ t.status = .running ∧ (0 < k → (k : Int) ≤ t.pc ∧ k ≤ 256) := by
  induction k with
  | zero => exact .inr ⟨s, (runsTo_zero s s).2 rfl, hrun, fun h => absurd h (lt_irrefl 0)⟩
  | succ k ih =>
    obtain ⟨j, t, hj, hend⟩ | ⟨t, hrt, htrun, hpc⟩ := ih (by omega)
    · exact .inl ⟨j, t, by omega, hend⟩
    obtain ⟨hcall, hret⟩ := hno k t (by omega) hrt
    obtain ⟨u, hu⟩ := runningCoreAlwaysSteps.2 t htrun
    have hru := runsTo_snoc k s t u hrt hu
    cases hst : u.status with
    | halted => exact .inl ⟨k + 1, u, le_rfl, hru, .inl hst⟩
    | faulted => exact .inl ⟨k + 1, u, le_rfl, hru, .inr hst⟩
    | running =>
      obtain ⟨hv, hlt⟩ := pc_lt_of_step hu (by simp [hst]) hcall hret
      have h0 := hv.1
      have h1 := hv.2
      refine .inr ⟨u, hru, hst, fun _ => ?_⟩
      obtain rfl | hpos := Nat.eq_zero_or_pos k
      · omega
      · have := hpc hpos
        omega

/-- Settles O51: after 257 steps the pc would have left memory before the last of them (`ended_or_pc_ge`). -/
theorem runWithoutCallOrRetEnds : Obligations.RunWithoutCallOrRetEnds := by
  intro s hrun hno
  obtain hend | ⟨t, _, _, hpc⟩ := ended_or_pc_ge hrun hno 257 le_rfl
  · exact hend
  · exact absurd (hpc (by decide)).2 (by decide)

end Sys2Proof.Machine
end

section
/-! The reserved registers (R26, R178): replacing the content of a register other than R7 that an instruction does not
name commutes with each access, with each numbered step, with each handler, and so with the step. -/
namespace Sys2Proof.Machine

/-- The result with the register `q` of a next state holding `v`; a stop stays the same stop. -/
def replaceReg (q : Reg) (v : Int) : Result → Result
  | .next t => .next (t.setReg q v)
  | .fault f => .fault f
  | .refused r => .refused r

/-- An operand byte is read without the register `q`. -/
def Ignores (q : Reg) (op : OperandReader) : Prop :=
  ∀ s v, op (s.setReg q v) = op s

/-- The operand byte read in `s` does not name the register `q`. -/
def Misses (q : Reg) (op : OperandReader) (s : State) : Prop :=
  ∀ r, op s = .ok r → Reg.ofIndex r.toNat ≠ some q

/-! ### Accesses -/

/-- Writes to different registers commute (R23). -/
theorem setReg_comm (s : State) {q R : Reg} (v w : Int) (h : R ≠ q) :
    (s.setReg q v).setReg R w = (s.setReg R w).setReg q v := by
  have hx : (s.x.set q v).set R w = (s.x.set R w).set q v := by
    refine Regs.ext_get _ _ fun i => ?_
    simp only [Regs.get_set]
    split
    · next hi => rw [if_neg (hi ▸ h)]
    · rfl
  exact congrArg (fun x => { s with x := x }) hx

/-- Writing back what a register holds changes nothing. -/
theorem setReg_reg (s : State) (q : Reg) : s.setReg q (s.reg q) = s := by
  have hx : s.x.set q (s.reg q) = s.x := by
    refine Regs.ext_get _ _ fun i => ?_
    rw [Regs.get_set]
    split
    · next hi => rw [hi]; rfl
    · rfl
  exact congrArg (fun x => { s with x := x }) hx

section
variable {c : Config} {s : State} {q : Reg} {v : Int}

theorem readReg_setReg {i : Byte} (h : Reg.ofIndex i.toNat ≠ some q) : readReg (s.setReg q v) i = readReg s i := by
  cases hR : Reg.ofIndex i.toNat with
  | none => rw [readReg_of_invalid _ i hR, readReg_of_invalid _ i hR]
  | some R =>
    have hne : R ≠ q := fun hRq => h (hRq ▸ hR)
    rw [readReg_of_index _ i R hR, readReg_of_index _ i R hR, State.reg_setReg, if_neg hne]

theorem writeSlot_setReg {R : Reg} (w : Int) (h : R ≠ q) :
    writeSlot c (s.setReg q v) R w = (writeSlot c s R w).map (·.setReg q v) := by
  obtain ⟨hr, hw⟩ | ⟨hr, hw⟩ := writeSlot_cases c s R w
  · rw [hw, writeSlot_of_inRange _ R hr, setReg_comm s v w h]
    rfl
  · rw [hw, writeSlot_of_not_inRange _ R hr]
    rfl

theorem writeReg_setReg {i : Byte} (w : Int) (h : Reg.ofIndex i.toNat ≠ some q) :
    writeReg c (s.setReg q v) i w = (writeReg c s i w).map (·.setReg q v) := by
  cases hR : Reg.ofIndex i.toNat with
  | none =>
    rw [writeReg_of_invalid c _ i w hR, writeReg_of_invalid c _ i w hR]
    rfl
  | some R =>
    rw [writeReg_of_index c _ i w R hR, writeReg_of_index c _ i w R hR]
    exact writeSlot_setReg w fun hRq => h (hRq ▸ hR)

theorem memWrite_setReg (a w : Int) :
    memWrite (s.setReg q v) a w = (memWrite s a w).map (·.setReg q v) := by
  unfold memWrite
  split
  · split <;> rfl
  · rfl

/-- The stack pointer is another register. -/
theorem reg_r7_setReg (hq : q ≠ .r7) : (s.setReg q v).reg .r7 = s.reg .r7 :=
  (s.reg_setReg q .r7 v).trans (if_neg (Ne.symm hq))

theorem pushSlot_setReg (hq : q ≠ .r7) : (s.setReg q v).pushSlot = s.pushSlot := by
  rw [State.pushSlot, reg_r7_setReg hq, State.pushSlot]

theorem popSlot_setReg (hq : q ≠ .r7) : (s.setReg q v).popSlot = s.popSlot :=
  reg_r7_setReg hq

/-! ### Numbered steps -/

/-- A numbered step that answers a value: the same answer, and the steps after it commute. -/
theorem attempt_setReg {α : Type} {r : Except FaultCause α} {k k' : α → Result}
    (hk : ∀ a, r = .ok a → k' a = replaceReg q v (k a)) :
    (s.setReg q v).attempt r k' = replaceReg q v (s.attempt r k) := by
  cases r with
  | error e => rfl
  | ok a => exact hk a rfl

/-- A numbered step that answers a state: that state with the register replaced, and the steps after it commute. -/
theorem attempt_state_setReg {r r' : Except FaultCause State} {k k' : State → Result}
    (hr : r' = r.map (·.setReg q v)) (hk : ∀ t, r = .ok t → k' (t.setReg q v) = replaceReg q v (k t)) :
    (s.setReg q v).attempt r' k' = replaceReg q v (s.attempt r k) := by
  subst hr
  cases r with
  | error e => rfl
  | ok t => exact hk t rfl

/-! ### Handlers -/

variable {op1 op2 : OperandReader}

theorem ldiSteps_setReg (h1 : Ignores q op1) (h2 : Ignores q op2) (hm : Misses q op1 s) :
    ldiSteps c op1 op2 (s.setReg q v) = replaceReg q v (ldiSteps c op1 op2 s) := by
  rw [ldiSteps, h1, h2]
  exact attempt_setReg fun r hr => attempt_setReg fun imm _ =>
    attempt_state_setReg (writeReg_setReg _ (hm r hr)) fun _ _ => rfl

theorem prnSteps_setReg (h1 : Ignores q op1) (hm : Misses q op1 s) :
    prnSteps op1 (s.setReg q v) = replaceReg q v (prnSteps op1 s) := by
  rw [prnSteps, h1]
  refine attempt_setReg fun r hr => ?_
  rw [readReg_setReg (hm r hr)]
  exact attempt_setReg fun _ _ => rfl

theorem aluSteps_setReg {op : AluOp} (h1 : Ignores q op1) (h2 : Ignores q op2) (hm1 : Misses q op1 s)
    (hm2 : Misses q op2 s) : aluSteps c op op1 op2 (s.setReg q v) = replaceReg q v (aluSteps c op op1 op2 s) := by
  rw [aluSteps, h1, h2]
  refine attempt_setReg fun ra hra => attempt_setReg fun rb hrb => ?_
  rw [readReg_setReg (hm1 ra hra), readReg_setReg (hm2 rb hrb)]
  exact attempt_setReg fun a _ => attempt_setReg fun b _ => attempt_setReg fun _ _ =>
    attempt_state_setReg (writeReg_setReg _ (hm1 ra hra)) fun _ _ => rfl

theorem pushSteps_setReg (hq : q ≠ .r7) (h1 : Ignores q op1) (hm : Misses q op1 s.pushed) :
    pushSteps c op1 (s.setReg q v) = replaceReg q v (pushSteps c op1 s) := by
  rw [pushSteps, pushSlot_setReg hq]
  refine attempt_state_setReg (writeSlot_setReg _ (Ne.symm hq)) fun s1 hs1 => ?_
  obtain ⟨_, rfl⟩ := writeSlot_eq_ok hs1
  rw [h1]
  refine attempt_setReg fun r hr => ?_
  rw [readReg_setReg (hm r hr), reg_r7_setReg hq]
  exact attempt_setReg fun w _ => attempt_state_setReg (memWrite_setReg _ w) fun _ _ => rfl

theorem popSteps_setReg (hq : q ≠ .r7) (h1 : Ignores q op1) (hm : Misses q op1 s) :
    popSteps c op1 (s.setReg q v) = replaceReg q v (popSteps c op1 s) := by
  rw [popSteps, popSlot_setReg hq, h1]
  refine attempt_setReg fun b _ => attempt_setReg fun r hr =>
    attempt_state_setReg (writeReg_setReg _ (hm r hr)) fun s1 _ => ?_
  rw [reg_r7_setReg hq]
  exact attempt_state_setReg (writeSlot_setReg _ (Ne.symm hq)) fun _ _ => rfl

theorem callSteps_setReg (hq : q ≠ .r7) (h1 : Ignores q op1)
    (hm : 0 ≤ s.nextPc → s.nextPc ≤ 255 → Misses q op1 s.called) :
    callSteps c op1 (s.setReg q v) = replaceReg q v (callSteps c op1 s) := by
  rw [callSteps, pushSlot_setReg hq]
  refine attempt_state_setReg (writeSlot_setReg _ (Ne.symm hq)) fun s1 hs1 => ?_
  obtain ⟨_, rfl⟩ := writeSlot_eq_ok hs1
  rw [reg_r7_setReg hq, State.setReg_nextPc]
  refine attempt_state_setReg (memWrite_setReg _ _) fun s2 hs2 => ?_
  rw [State.reg_setReg_same, State.setReg_nextPc] at hs2
  obtain ⟨_, h0, h255, rfl⟩ := memWrite_eq_ok hs2
  rw [h1]
  refine attempt_setReg fun r hr => ?_
  have hname : Reg.ofIndex r.toNat ≠ some q := hm h0 h255 r hr
  rw [readReg_setReg hname]
  exact attempt_setReg fun _ _ => rfl

theorem retSteps_setReg (hq : q ≠ .r7) : retSteps c (s.setReg q v) = replaceReg q v (retSteps c s) := by
  rw [retSteps, popSlot_setReg hq, reg_r7_setReg hq]
  exact attempt_setReg fun b _ => attempt_state_setReg (writeSlot_setReg _ (Ne.symm hq)) fun _ _ => rfl

end

/-! ### Instructions -/

theorem fetchedOperand_ignores (q : Reg) (o : Operand) (k : Nat) : Ignores q (fetchedOperand o k) :=
  fun _ _ => rfl

theorem callOperand_ignores {q : Reg} (hq : q ≠ .r7) (o : Operand) : Ignores q (callOperand o) := by
  intro s v
  rw [callOperand, reg_r7_setReg hq]
  rfl

theorem fetchedOperand_misses {q : Reg} {o : Operand} (k : Nat) (s : State) (ho : ¬ OperandNames o q) :
    Misses q (fetchedOperand o k) s :=
  fun r hr hname => ho ⟨r, fetchedOperand_eq_ok hr, hname⟩

/-- CALL's operand misses the register when neither its own byte nor, where its store lands on it, the byte stored names
it (R160). -/
theorem callOperand_misses {q : Reg} {o : Operand} {s : State} (hwf : s.mem.wf = true) (ho : ¬ OperandNames o q)
    (hv : 0 ≤ s.nextPc ∧ s.nextPc ≤ 255) (hstored : s.pushSlot = s.pc + 1 → Reg.ofIndex s.nextPc.toNat ≠ some q) :
    Misses q (callOperand o) s.called := by
  have hsp : s.called.reg .r7 = s.pushSlot := (reg_called s .r7).trans (if_pos rfl)
  intro r hr
  by_cases hhit : s.pushSlot = s.pc + 1
  · rw [callOperand_hit _ _ (hsp.trans hhit)] at hr
    have hcell : s.called.cell s.pushSlot = BitVec.ofNat 8 s.nextPc.toNat := State.cell_setCell_same s.pushed _ _ hwf
    obtain ⟨_, rfl⟩ := memRead_eq_ok hr
    have hbyte : ((s.called.cell (s.pc + 1)).toNat : Int) = s.nextPc := by
      rw [← hhit, hcell, toNat_ofNat_of_byte hv]
    have hnat : (s.called.cell (s.called.pc + ((1 : Nat) : Int))).toNat = s.nextPc.toNat := by
      rw [← hbyte]
      rfl
    rw [hnat]
    exact hstored hhit
  · rw [callOperand_missed _ _ (by rw [hsp]; exact hhit)] at hr
    exact fetchedOperand_misses 1 s.called ho r hr

/-- An instruction that does not name the register does the same whatever it holds. -/
theorem execWith_setReg {c : Config} {i : Instr} {s : State} {q : Reg} (v : Int) (hq : q ≠ .r7) (hwf : s.mem.wf = true)
    (hi : ∀ o ∈ registerOperands i, ¬ OperandNames o q)
    (hcall : i.handler = .call → s.pushSlot = s.pc + 1 → Reg.ofIndex s.nextPc.toNat ≠ some q) :
    execWith c i (s.setReg q v) = replaceReg q v (execWith c i s) := by
  have hign := fetchedOperand_ignores q
  have hmiss : ∀ o k, o ∈ registerOperands i → ∀ u, Misses q (fetchedOperand o k) u :=
    fun o k ho u => fetchedOperand_misses k u (hi o ho)
  cases i with
  | ldi a b => exact ldiSteps_setReg (hign a 1) (hign b 2) (hmiss a 1 (by simp [registerOperands]) s)
  | prn a => exact prnSteps_setReg (hign a 1) (hmiss a 1 (by simp [registerOperands]) s)
  | hlt => rfl
  | add a b | sub a b | mul a b | div a b | mod a b =>
    exact aluSteps_setReg (hign a 1) (hign b 2) (hmiss a 1 (by simp [registerOperands]) s)
      (hmiss b 2 (by simp [registerOperands]) s)
  | push a => exact pushSteps_setReg hq (hign a 1) (hmiss a 1 (by simp [registerOperands]) s.pushed)
  | pop a => exact popSteps_setReg hq (hign a 1) (hmiss a 1 (by simp [registerOperands]) s)
  | call a =>
    exact callSteps_setReg hq (callOperand_ignores hq a) fun h0 h1 =>
      callOperand_misses hwf (hi a (by simp [registerOperands])) ⟨h0, h1⟩ (hcall rfl)
  | ret => exact retSteps_setReg hq

/-! ### The step -/

/-- A step whose instruction does not name the register does the same whatever it holds, and a stop stays the same. -/
theorem step_setReg {s : State} {q : Reg} (v : Int) (hq : q ≠ .r7) (hwf : s.mem.wf = true)
    (hnames : ∀ b i rest, s.Fetches b → decode (b :: operandBytes s) = .ok (i, rest) →
      ∀ o ∈ registerOperands i, ¬ OperandNames o q)
    (hcall : s.Fetches 0x50#8 → s.pushSlot = s.pc + 1 → Reg.ofIndex (s.pc + 2).toNat ≠ some q) :
    step (s.setReg q v) = replaceReg q v (step s) := by
  cases hst : s.status with
  | halted | faulted => simp only [step, cycle, State.setReg_status, hst, replaceReg, State.setReg_fault]
  | running =>
    by_cases hv : validAddress s.pc
    swap
    · rw [step, step, cycle_of_invalid_pc _ _ s hst hv, cycle_of_invalid_pc _ _ (s.setReg q v) hst hv]
      rfl
    have hf : s.Fetches (s.cell s.pc) := ⟨hst, hv, rfl⟩
    have hf' : (s.setReg q v).Fetches (s.cell s.pc) := ⟨hst, hv, rfl⟩
    cases hl : lookup Config.default (s.cell s.pc) with
    | none =>
      rw [step, step, cycle_of_lookup_none _ hf hl, cycle_of_lookup_none _ hf' hl]
      rfl
    | some h =>
      obtain ⟨rest, hdec⟩ := (decode_eq_ok_iff hv).2 ⟨h, hl, rfl⟩
      rw [step_eq_stepWith, step_eq_stepWith, stepWith_eq_execWith hf hl, stepWith_eq_execWith hf' hl]
      refine execWith_setReg (s := s.setIr (s.cell s.pc)) v hq hwf (hnames _ _ rest hf hdec) fun hh hhit => ?_
      rw [handler_instrAt] at hh
      subst hh
      have hop : (0x50#8 : Byte) = s.cell s.pc := opcode_of_lookup _ _ .call hl
      have hnext : (s.setIr (s.cell s.pc)).nextPc = s.pc + 2 := nextPc_setIr s (s.cell s.pc) (n := 1) (hop ▸ rfl)
      rw [hnext]
      exact hcall (hop ▸ hf) hhit

/-- Settles O50: `step_setReg`; that the register keeps its content is the same with its own content put back. -/
theorem reservedRegistersAreInert : Obligations.ReservedRegistersAreInert := by
  intro s q v hinv hq hnames hcall
  have hq7 : q ≠ .r7 := by
    rintro rfl
    obtain h | h := hq <;> cases h
  have hinert := fun w => step_setReg w hq7 hinv.memWf hnames hcall
  refine ⟨fun t ht => ⟨?_, ?_⟩, fun f hf => ?_⟩
  · rw [hinert v, ht]
    rfl
  · have hself : replaceReg q (s.reg q) (.next t) = .next t := by
      rw [← ht, ← hinert, setReg_reg]
    have hkept : t.setReg q (s.reg q) = t := Host.Outcome.next.inj hself
    rw [← hkept, State.reg_setReg_same]
  · rw [hinert v, hf]
    rfl

end Sys2Proof.Machine
end

section
/-! Which instruction can raise which fault kind under the default parameters (R175, R177): the cause each access
raises, and then each instruction's numbered steps, one `records_attempt` for each. -/
namespace Sys2Proof.Machine

/-- The causes that an instruction can raise under the default parameters (R177). -/
inductive MayRaise (i : Instr) : FaultCause → Prop where
  /-- an index above 7, in every instruction that reads one -/
  | invalidRegister (n : Byte) (hi : i.handler ≠ .ret) (hn : 8 ≤ n.toNat) : MayRaise i (.invalidRegister n)
  /-- an address that names no cell, or an operand byte past the end of memory -/
  | outOfBounds (a : Int) (ha : a < 0 ∨ 255 < a ∨ ∃ o ∈ i.operands, o = .beyond) : MayRaise i (.outOfBounds a)
  /-- a divisor register that holds 0 -/
  | divisionByZero (rb : Byte) (hi : i.handler = .div ∨ i.handler = .mod) : MayRaise i (.divisionByZero rb)
  /-- a value that is stored and is no byte -/
  | valueOutOfRange (v : Int) (hi : i.handler = .push ∨ i.handler = .call) (hv : v < 0 ∨ 255 < v) :
      MayRaise i (.valueOutOfRange v)

/-! ### The accesses -/

section
variable {i : Instr} {s : State} {e : FaultCause}

theorem mayRaise_of_readReg {n : Byte} (hi : i.handler ≠ .ret) (h : readReg s n = .error e) : MayRaise i e := by
  obtain ⟨_, _, hr⟩ | ⟨hn, hr⟩ := readReg_cases s n <;> cases hr.symm.trans h
  exact .invalidRegister n hi ((Reg.ofIndex_eq_none_iff _).1 hn)

/-- Every integer fits a register, so only the index can be refused. -/
theorem mayRaise_of_writeReg {n : Byte} {v : Int} (hi : i.handler ≠ .ret)
    (h : writeReg Config.default s n v = .error e) : MayRaise i e := by
  obtain ⟨_, _, _, hr⟩ | ⟨_, _, hout, _⟩ | ⟨hn, hr⟩ := writeReg_cases Config.default s n v
  · cases hr.symm.trans h
  · cases (inRange_default v).symm.trans hout
  · cases hr.symm.trans h
    exact .invalidRegister n hi ((Reg.ofIndex_eq_none_iff _).1 hn)

theorem mayRaise_of_writeSlot {R : Reg} {v : Int} (h : writeSlot Config.default s R v = .error e) : MayRaise i e := by
  rw [writeSlot_default] at h
  cases h

theorem mayRaise_of_memRead {a : Int} (h : memRead s a = .error e) : MayRaise i e := by
  obtain ⟨_, hr⟩ | ⟨ha, hr⟩ := memRead_cases s a <;> cases hr.symm.trans h
  exact .outOfBounds a (((not_validAddress_iff a).1 ha).imp_right .inl)

theorem mayRaise_of_memWrite {a v : Int} (hi : i.handler = .push ∨ i.handler = .call)
    (h : memWrite s a v = .error e) : MayRaise i e := by
  obtain ⟨_, _, _, hr⟩ | ⟨_, hv, hr⟩ | ⟨ha, hr⟩ := memWrite_cases s a v <;> cases hr.symm.trans h
  · exact .valueOutOfRange v hi ((not_validAddress_iff v).1 hv)
  · exact .outOfBounds a (((not_validAddress_iff a).1 ha).imp_right .inl)

theorem mayRaise_of_fetchedOperand {o : Operand} {k : Nat} (ho : o ∈ i.operands)
    (h : fetchedOperand o k s = .error e) : MayRaise i e := by
  cases o with
  | byte b => cases h
  | beyond =>
    cases h
    exact .outOfBounds _ (.inr (.inr ⟨_, ho, rfl⟩))

theorem mayRaise_of_callOperand {o : Operand} (ho : o ∈ i.operands) (h : callOperand o s = .error e) :
    MayRaise i e := by
  by_cases hhit : s.reg .r7 = s.pc + 1
  · rw [callOperand_hit o s hhit] at h
    exact mayRaise_of_memRead h
  · rw [callOperand_missed o s hhit] at h
    exact mayRaise_of_fetchedOperand ho h

theorem mayRaise_of_checkDivisor {op : AluOp} {rb : Byte} {b : Int}
    (hi : op.divides = true → i.handler = .div ∨ i.handler = .mod) (h : checkDivisor op rb b = .error e) :
    MayRaise i e := by
  obtain ⟨hd, _, hr⟩ | ⟨_, hr⟩ := checkDivisor_cases op rb b <;> cases hr.symm.trans h
  exact .divisionByZero rb (hi hd)

end

/-! ### The instructions -/

/-- The five ALU instructions (R130). -/
theorem aluSteps_mayRaise {op : AluOp} {a b : Operand} {s : State} (hs : s.fault = none) :
    Records (MayRaise (op.instr a b)) (aluSteps Config.default op (fetchedOperand a 1) (fetchedOperand b 2) s) := by
  have hret : (op.instr a b).handler ≠ .ret := by cases op <;> exact nofun
  have hops : (op.instr a b).operands = [a, b] := by cases op <;> rfl
  have hdiv : op.divides = true → (op.instr a b).handler = .div ∨ (op.instr a b).handler = .mod := by
    cases op with
    | div => exact fun _ => .inl rfl
    | mod => exact fun _ => .inr rfl
    | add | sub | mul => exact nofun
  refine records_attempt (fun _ => mayRaise_of_fetchedOperand (by simp [hops])) fun ra _ =>
    records_attempt (fun _ => mayRaise_of_fetchedOperand (by simp [hops])) fun rb _ =>
    records_attempt (fun _ => mayRaise_of_readReg hret) fun _ _ =>
    records_attempt (fun _ => mayRaise_of_readReg hret) fun _ _ =>
    records_attempt (fun _ => mayRaise_of_checkDivisor hdiv) fun _ _ =>
    records_attempt (fun _ => mayRaise_of_writeReg hret) fun s' hw => ?_
  obtain ⟨_, _, _, rfl⟩ := writeReg_eq_ok hw
  exact records_next hs

/-- What an instruction records in a state without a fault record is one of the causes it may raise (R177). -/
theorem exec_mayRaise (i : Instr) {s : State} (hs : s.fault = none) : Records (MayRaise i) (exec i s) := by
  cases i with
  | ldi a b =>
    refine records_attempt (fun _ => mayRaise_of_fetchedOperand (by simp [Instr.operands])) fun r _ =>
      records_attempt (fun _ => mayRaise_of_fetchedOperand (by simp [Instr.operands])) fun imm _ =>
      records_attempt (fun _ => mayRaise_of_writeReg nofun) fun s' hw => ?_
    obtain ⟨_, _, _, rfl⟩ := writeReg_eq_ok hw
    exact records_next hs
  | prn a =>
    exact records_attempt (fun _ => mayRaise_of_fetchedOperand (by simp [Instr.operands])) fun _ _ =>
      records_attempt (fun _ => mayRaise_of_readReg nofun) fun _ _ => records_next hs
  | hlt => exact records_next hs
  | add => exact aluSteps_mayRaise (op := .add) hs
  | sub => exact aluSteps_mayRaise (op := .sub) hs
  | mul => exact aluSteps_mayRaise (op := .mul) hs
  | div => exact aluSteps_mayRaise (op := .div) hs
  | mod => exact aluSteps_mayRaise (op := .mod) hs
  | push a =>
    rw [exec_push]
    refine records_attempt (fun _ => mayRaise_of_fetchedOperand (by simp [Instr.operands])) fun r _ =>
      records_attempt (fun _ => mayRaise_of_readReg nofun) fun v _ =>
      records_attempt (fun _ => mayRaise_of_memWrite (.inl rfl)) fun s2 hs2 => ?_
    obtain ⟨_, _, _, rfl⟩ := memWrite_eq_ok hs2
    exact records_next hs
  | pop a =>
    refine records_attempt (fun _ => mayRaise_of_memRead) fun v _ =>
      records_attempt (fun _ => mayRaise_of_fetchedOperand (by simp [Instr.operands])) fun r _ =>
      records_attempt (fun _ => mayRaise_of_writeReg nofun) fun s1 hs1 =>
      records_attempt (fun _ => mayRaise_of_writeSlot) fun s2 hs2 => ?_
    obtain ⟨_, _, _, rfl⟩ := writeReg_eq_ok hs1
    obtain ⟨_, rfl⟩ := writeSlot_eq_ok hs2
    exact records_next hs
  | call a =>
    rw [exec_call]
    refine records_attempt (fun _ => mayRaise_of_memWrite (.inr rfl)) fun s2 hs2 =>
      records_attempt (fun _ => mayRaise_of_callOperand (by simp [Instr.operands])) fun r _ =>
      records_attempt (fun _ => mayRaise_of_readReg nofun) fun v _ => ?_
    obtain ⟨_, _, _, rfl⟩ := memWrite_eq_ok hs2
    exact records_next hs
  | ret =>
    refine records_attempt (fun _ => mayRaise_of_memRead) fun v _ =>
      records_attempt (fun _ => mayRaise_of_writeSlot) fun s1 hs1 => ?_
    obtain ⟨_, rfl⟩ := writeSlot_eq_ok hs1
    exact records_next hs

/-- Settles O42: HLT records nothing, and the others what `MayRaise` lists. -/
theorem whichInstructionRaisesWhichFault : Obligations.WhichInstructionRaisesWhichFault := by
  rintro s t i ⟨e, opcode, pc0⟩ hs hex hr
  refine ⟨fun hi => ?_, ?_⟩
  · cases i <;> cases hi
    cases hex
    cases hs.symm.trans hr
  · have hmay : MayRaise i e := exec_mayRaise i hs t _ hex hr
    cases hmay with
    | invalidRegister n hi hn => exact ⟨hi, hn⟩
    | outOfBounds a ha => exact ha
    | divisionByZero rb hi => exact hi
    | valueOutOfRange v hi hv => exact ⟨hi, hv⟩

end Sys2Proof.Machine
end
